-- ==== Sys2Proof/Word.lean ====
section
/-! DEFINITION. The words of the datapath (00_scope.md §6): u32 and u8. Nothing is signed (R103). -/

namespace Sys2Proof

/-- u32: a state word, a register, a bus data word (00_scope.md R6, WORD_W). -/
abbrev Word := BitVec 32

/-- u8: a byte of system memory or of the keystream block. -/
abbrev Byte := BitVec 8

end Sys2Proof
end

