-- ==== Sys2Proof/Syntax.lean ====
section
/-! DEFINITION. The commands of the engine: one constructor per row of spec/opcode_table.json (30_encoding.md R83). -/

namespace Sys2Proof

/-- A command (30_encoding.md R80, R83). Every operand but BLOCK's is implicit (R82, R90). -/
inductive Instr where
  /-- NOP, OP 0x0 (R130). -/
  | nop
  /-- INIT, OP 0x1 (R131). -/
  | init
  /-- BLOCK, OP 0x2 (R150): `dr` double rounds, an unscaled unsigned count, and the flag INC (R82). -/
  | block (dr : Nat) (inc : Bool)
  /-- CIPHER, OP 0x3 (R152). -/
  | cipher
  /-- ZEROIZE, OP 0x4 (R132). -/
  | zeroize
  deriving DecidableEq, Repr

/-- The pseudo-command BLOCK20 (R87). -/
def Instr.block20 : Instr := .block 10 false

/-- The pseudo-command BLOCK20.INC (R87). -/
def Instr.block20Inc : Instr := .block 10 true

end Sys2Proof
end

