-- ==== Sys2Proof/WellFormed.lean ====
section
/-! DEFINITION. Which commands a command word can hold (30_encoding.md R81, R89). -/

namespace Sys2Proof

/-- The DR operand: BLOCK's count; the other commands have no operand and DR = 0 (R81). -/
def Instr.dr : Instr → Nat
  | .nop => 0
  | .init => 0
  | .block dr _ => dr
  | .cipher => 0
  | .zeroize => 0

/-- DR is a field of five bits, 0 to 31 (R81, R86; notes/assumptions/15.md for a larger count). -/
abbrev Instr.WellFormed (i : Instr) : Prop := i.dr ≤ 31

end Sys2Proof
end

