-- ==== Sys2Proof/Decode.lean ====
section
/-! DEFINITION. The decoder of command words (30_encoding.md R80 to R85), total on every 32-bit word, and the encoder (R89). -/

namespace Sys2Proof

/-- Why a command word is illegal (R84). The engine treats every one alike: IllegalCommand (R85, R133). -/
inductive DecodeError where
  /-- A bit of RSV0, RSV1 or RSV2 is set (R81). -/
  | reservedBits
  /-- OP is 0x5 to 0xF (R83). -/
  | reservedOp
  /-- INC or DR is nonzero and OP is not BLOCK (R81). -/
  | operandOutsideBlock
  deriving DecidableEq, Repr

/-- OP, bits 3:0 (R81). -/
def fieldOp (w : Word) : BitVec 4 := w.extractLsb' 0 4

/-- RSV0, bits 7:4 (R81). -/
def fieldRsv0 (w : Word) : BitVec 4 := w.extractLsb' 4 4

/-- INC, bit 8 (R81). -/
def fieldInc (w : Word) : Bool := w.getLsbD 8

/-- RSV1, bits 15:9 (R81). -/
def fieldRsv1 (w : Word) : BitVec 7 := w.extractLsb' 9 7

/-- DR, bits 20:16, unsigned (R81, R82). -/
def fieldDr (w : Word) : BitVec 5 := w.extractLsb' 16 5

/-- RSV2, bits 31:21 (R81). -/
def fieldRsv2 (w : Word) : BitVec 11 := w.extractLsb' 21 11

/-- `legal(w)`, as R84 writes it. -/
def legal (w : Word) : Bool :=
  fieldRsv2 w == 0 && fieldRsv1 w == 0 && fieldRsv0 w == 0
    && (fieldOp w == 0 || fieldOp w == 1 || fieldOp w == 2 || fieldOp w == 3 || fieldOp w == 4)
    && (fieldOp w == 2 || (fieldDr w == 0 && !fieldInc w))

/-- A command without operands: legal only with INC = 0 and DR = 0 (R81, R84). -/
def decodePlain (w : Word) (i : Instr) : Except DecodeError Instr :=
  if fieldDr w = 0 ∧ fieldInc w = false then .ok i else .error .operandOutsideBlock

/-- Decode a command word (R80 to R84). -/
def decode (w : Word) : Except DecodeError Instr :=
  if fieldRsv2 w = 0 ∧ fieldRsv1 w = 0 ∧ fieldRsv0 w = 0 then
    if fieldOp w = 0 then decodePlain w .nop
    else if fieldOp w = 1 then decodePlain w .init
    else if fieldOp w = 2 then .ok (.block (fieldDr w).toNat (fieldInc w))
    else if fieldOp w = 3 then decodePlain w .cipher
    else if fieldOp w = 4 then decodePlain w .zeroize
    else .error .reservedOp
  else .error .reservedBits

/-- The command word of a command (R86, R89). -/
def encode : Instr → Word
  | .nop => 0x00000000
  | .init => 0x00000001
  | .block dr inc => BitVec.ofNat 32 (0x00000002 + dr * 2 ^ 16 + inc.toNat * 2 ^ 8)
  | .cipher => 0x00000003
  | .zeroize => 0x00000004

/-- Every command of R89's table, in its order: four without operands and the 64 BLOCKs. -/
def legalInstrs : List Instr :=
  [.nop, .init]
    ++ (List.range 32).flatMap (fun dr => [.block dr false, .block dr true])
    ++ [.cipher, .zeroize]

/-- What the decoder reads from a word of `nbits` bits numbered as spec/opcode_table.json numbers them. One CMD write is one
32-bit word (R80), so a number of more than 32 bits is no command. -/
def decodeTableWord (nbits w : Nat) : Option Instr :=
  let v := w % 2 ^ nbits
  if v < 2 ^ 32 then (decode (BitVec.ofNat 32 v)).toOption else none

end Sys2Proof
end

