-- ==== Sys2Proof/Config.lean ====
section
/-! DEFINITION. What the spec fixes once for this hardware (00_scope.md R6, 40_datapath.md R109), and the free values it leaves
open. The OPEN parameters BASE and MEM_OK are plain data in `Sys2Proof.Machine.State`, so that statements cover every value. -/

namespace Sys2Proof.Config

/-- CIPHER_DR, the double rounds CIPHER uses (00_scope.md R6, 40_datapath.md R108). -/
def cipherDR : Nat := 10

/-- The identification constant that ID reads (10_state.md R24). -/
def idWord : Word := 0x30324343

/-- The size in bytes of the register window (10_state.md R20). -/
def windowSize : Nat := 0x1000

/-- The number of byte addresses of system memory (20_memory.md R60). -/
def addressSpace : Nat := 2 ^ 32

/-- CONST[0], bytes "expa" (40_datapath.md R109). -/
def const0 : Word := 0x61707865
/-- CONST[1], bytes "nd 3" (40_datapath.md R109). -/
def const1 : Word := 0x3320646e
/-- CONST[2], bytes "2-by" (40_datapath.md R109). -/
def const2 : Word := 0x79622d32
/-- CONST[3], bytes "te k" (40_datapath.md R109). -/
def const3 : Word := 0x6b206574

/-- What a byte of system memory reads as while the memory list does not name it.
DESIGN CHOICE, unsafe only for statements about `State.reset`: the spec gives system memory no contents, and any contents are a
memory list over this default (notes/assumptions/1.md). -/
def unlistedByte : Byte := 0

/-- The n-th 32-bit draw: a free value (10_state.md R31, R36). It has no body, so nothing can be proved about it
(notes/assumptions/5.md). -/
opaque draw32 : Nat → Word

/-- The n-th 8-bit draw: a free value (20_memory.md R71). It has no body, so nothing can be proved about it
(notes/assumptions/5.md). -/
opaque draw8 : Nat → Byte

end Sys2Proof.Config
end

