-- ==== Sys2Proof/Machine/Datapath.lean ====
section
/-! DEFINITION. The datapath functions of 40_datapath.md: Endian Codec, Bit Rotation, Quarter Round, Block Transform, State
Initializer, keystream. Each is pure and total and sets no flag. Additions are `BitVec` additions, modulo 2^32 (R103). -/

namespace Sys2Proof.Machine

/-- Byte i of `le_bytes(w)`, `(w >> (8*i)) & 0xff` (R100). -/
def leByte (w : Word) (i : Nat) : Byte := (w >>> (8 * i)).setWidth 8

/-- `le_bytes(w)` (R100). -/
def leBytes (w : Word) : Vector Byte 4 := Vector.ofFn fun i : Fin 4 => leByte w i

/-- `le_word(b0, b1, b2, b3)`, least-significant byte first (R101). -/
def leWord (b0 b1 b2 b3 : Byte) : Word :=
  BitVec.ofNat 32 (b0.toNat + 2 ^ 8 * b1.toNat + 2 ^ 16 * b2.toNat + 2 ^ 24 * b3.toNat)

/-- `rotl32(x, n)` for 0 ≤ n ≤ 31 (R102): both shifts are by 0 to 31 bits. DESIGN CHOICE: for n above 31, where the spec lets no value
be assumed (91_not_in_source.md N11), it returns x; no caller passes such an n (notes/assumptions/18.md). -/
def rotl32 (x : Word) (n : Nat) : Word := (x <<< n) ||| (x >>> ((32 - n) % 32))

/-- One line of the Quarter Round: `s[a] <- s[a] + s[b]; s[d] <- rotl32(s[d] ^ s[a], n)` (R104). -/
def addXorRotate (s : Vector Word 16) (a b d : Fin 16) (n : Nat) : Vector Word 16 :=
  let s := s.set a (s[a] + s[b])
  s.set d (rotl32 (s[d] ^^^ s[a]) n)

/-- `qr(s, a, b, c, d)`, the Quarter Round, in the order R104 gives, for four distinct indices. DESIGN CHOICE: for an index given
twice, which R104 says never occurs and lets a model refuse, it computes the same four lines; no caller passes one
(notes/assumptions/20.md). -/
def qr (s : Vector Word 16) (a b c d : Fin 16) : Vector Word 16 :=
  let s := addXorRotate s a b d 16
  let s := addXorRotate s c d b 12
  let s := addXorRotate s a b d 8
  addXorRotate s c d b 7

/-- The four column groups of a double round (R105). -/
def columnRound (s : Vector Word 16) : Vector Word 16 :=
  qr (qr (qr (qr s 0 4 8 12) 1 5 9 13) 2 6 10 14) 3 7 11 15

/-- The four diagonal groups of a double round (R105). -/
def diagonalRound (s : Vector Word 16) : Vector Word 16 :=
  qr (qr (qr (qr s 0 5 10 15) 1 6 11 12) 2 7 8 13) 3 4 9 14

/-- `double_round(s)`: columns, then diagonals (R105). -/
def doubleRound (s : Vector Word 16) : Vector Word 16 := diagonalRound (columnRound s)

/-- The working buffer after `dr` double rounds, WORK of R107. -/
def rounds : Nat → Vector Word 16 → Vector Word 16
  | 0, s => s
  | n + 1, s => rounds n (doubleRound s)

/-- The sixteen feedforward words `o[i] = WORK[i] + s[i]` of R107. -/
def feedforward (work s : Vector Word 16) : Vector Word 16 := Vector.zipWith (· + ·) work s

/-- The 64 bytes `le_bytes(o[0]) ++ … ++ le_bytes(o[15])`: byte 4i + j is byte j of word i (R107). -/
def serialize (o : Vector Word 16) : Vector Byte 64 :=
  Vector.ofFn fun k : Fin 64 => leByte (o[k.val / 4]'(by omega)) (k.val % 4)

/-- `block(s, dr)`, the Block Transform (R107). -/
def block (s : Vector Word 16) (dr : Nat) : Vector Byte 64 := serialize (feedforward (rounds dr s) s)

/-- `init_state(k, c, n)`, the State Initializer (R110). -/
def initState (k : Vector Word 8) (c : Word) (n : Vector Word 3) : Vector Word 16 :=
  #v[Config.const0, Config.const1, Config.const2, Config.const3,
     k[0], k[1], k[2], k[3], k[4], k[5], k[6], k[7], c, n[0], n[1], n[2]]

/-- The key words of the call contract's 32 key bytes (R111, 20_memory.md R64). -/
def keyWords (bytes : Vector Byte 32) : Vector Word 8 :=
  Vector.ofFn fun i : Fin 8 =>
    leWord (bytes[4 * i.val]'(by omega)) (bytes[4 * i.val + 1]'(by omega))
      (bytes[4 * i.val + 2]'(by omega)) (bytes[4 * i.val + 3]'(by omega))

/-- The nonce words of the call contract's 12 nonce bytes (R111, 20_memory.md R64). -/
def nonceWords (bytes : Vector Byte 12) : Vector Word 3 :=
  Vector.ofFn fun i : Fin 3 =>
    leWord (bytes[4 * i.val]'(by omega)) (bytes[4 * i.val + 1]'(by omega))
      (bytes[4 * i.val + 2]'(by omega)) (bytes[4 * i.val + 3]'(by omega))

/-- The keystream byte at stream offset `p` (R112): byte `p mod 64` of the block for counter `c + p / 64`. DESIGN CHOICE: at
p ≥ 64 * (2^32 - c), where R112 defines none, the counter wraps modulo 2^32 (notes/assumptions/19.md). -/
def keystream (k : Vector Word 8) (c : Word) (n : Vector Word 3) (p : Nat) : Byte :=
  (block (initState k (c + BitVec.ofNat 32 (p / 64)) n) Config.cipherDR)[p % 64]'(Nat.mod_lt p (by decide))

end Sys2Proof.Machine
end

