-- ==== Sys2Proof/Machine/State.lean ====
section
/-! DEFINITION. The state of the machine as plain data (10_state.md), the reasons a step can stop, and the state after reset
(10_state.md R49). -/

namespace Sys2Proof.Machine

/-- PHASE, the next CIPHER step; CHECK for every other command (10_state.md R46, 42_keystream_commands.md R161). -/
inductive Phase where
  | check | gen | rd | wr
  deriving DecidableEq, Repr

/-- The kind of a DMA byte access (00_scope.md R6, MEM_OK). -/
inductive AccessKind where
  | read | write
  deriving DecidableEq, Repr

/-- The accesses of one kind to the addresses from `base` to `base + size - 1`. -/
structure Region where
  kind : AccessKind
  base : Nat
  size : Nat
  deriving DecidableEq, Repr

/-- One atomic step of one agent (00_scope.md R7, 20_memory.md R69). -/
inductive Move where
  /-- The engine's turn (42_keystream_commands.md R161). -/
  | engine
  /-- A host bus read of `bits` bits at bus address `addr` (10_state.md R20, R21). -/
  | busRead (addr bits : Nat)
  /-- A host bus write of `bits` bits at bus address `addr` (10_state.md R20, R21). -/
  | busWrite (addr bits : Nat) (v : Word)
  /-- A host read of one byte of system memory (20_memory.md R60, R69). -/
  | hostLoad (a : BitVec 32)
  /-- A host write of one byte of system memory (20_memory.md R60, R69). -/
  | hostStore (a : BitVec 32) (v : Byte)
  /-- From now on memory leaves exactly the accesses of `silent` unanswered (20_memory.md R62). -/
  | memoryAnswers (silent : List Region)
  /-- The `rst` input is asserted (70_reset_and_hazards.md R240). -/
  | reset
  deriving DecidableEq, Repr

/-- What the last host access got back. The model's own field (notes/assumptions/3.md). -/
inductive Response where
  /-- No host access has been made. -/
  | none
  /-- A write was taken. -/
  | ack
  /-- A register read returned `w`. -/
  | data (w : Word)
  /-- A memory read returned `b`. -/
  | byte (b : Byte)
  /-- `bus_error_response` (10_state.md R21). -/
  | busError
  /-- The bus address lies outside the register window: the engine does not answer (notes/assumptions/9.md). -/
  | undecoded
  deriving DecidableEq, Repr

/-- System memory: the listed bytes, addresses rising, none equal to `Config.unlistedByte`. -/
abbrev Memory := List Host.Cell

/-- The state. Fields down to `ibyte` are the engine's (10_state.md), `mem` is system memory, `base` to `memSilent` are the OPEN
platform parameters (00_scope.md R6), and the last four are the model's own (notes/assumptions/3.md). -/
structure State where
  /-- CTRL.IE (R25) -/
  ie : Bool
  /-- STATUS.BUSY (R26) -/
  busy : Bool
  /-- STATUS.DONE (R26) -/
  done : Bool
  /-- STATUS.ERR (R26) -/
  err : Bool
  /-- STATUS.BUSYWR (R26) -/
  busywr : Bool
  /-- STATUS.ERRCODE (R26) -/
  errcode : BitVec 4
  /-- SVALID (R42) -/
  svalid : Bool
  /-- CEXH (R43) -/
  cexh : Bool
  /-- LOADED.KEYLD (R29) -/
  keyld : BitVec 8
  /-- LOADED.NONCELD (R29) -/
  nonceld : BitVec 3
  /-- COUNTER (R30) -/
  counter : Word
  /-- KEY[0..7] (R32) -/
  key : Vector Word 8
  /-- NONCE[0..2] (R33) -/
  nonce : Vector Word 3
  /-- SRC (R34) -/
  src : Word
  /-- DST (R34) -/
  dst : Word
  /-- LEN (R35) -/
  len : Word
  /-- DCAP (R35) -/
  dcap : Word
  /-- STATE[0..15] (R40) -/
  state : Vector Word 16
  /-- WORK[0..15] (R44) -/
  work : Vector Word 16
  /-- KS[0..63] (R45) -/
  ks : Vector Byte 64
  /-- CURCMD (R46) -/
  curcmd : Word
  /-- PHASE (R46) -/
  phase : Phase
  /-- CI (R46) -/
  ci : Nat
  /-- IBYTE (R46) -/
  ibyte : Byte
  /-- System memory (20_memory.md R60) -/
  mem : Memory
  /-- BASE (00_scope.md R6) -/
  base : Nat
  /-- The accesses for which MEM_OK is false (00_scope.md R6) -/
  memBad : List Region
  /-- The accesses memory is at present not answering (20_memory.md R62) -/
  memSilent : List Region
  /-- The coming moves of the agents, oldest first; when it is empty the engine moves -/
  schedule : List Move
  /-- The response to the last host access -/
  resp : Response
  /-- The host has raced with the running CIPHER (20_memory.md R71) -/
  raced : Bool
  /-- How many draws have been taken -/
  draws : Nat
  deriving DecidableEq, Repr

/-- Why the machine can stop with a fault. The engine itself never halts (60_exceptions.md R200). -/
inductive Fault where
  /-- Raised by CIPHER's RD and WR steps for a DMA address at or above 2^32, outside the domain of MemRead and MemWrite
  (20_memory.md R62). Safe: no run reaches it (42_keystream_commands.md R154), and in a state no run reaches the model stops
  rather than picking an effect (notes/assumptions/7.md). -/
  | noSuchAddress (kind : AccessKind) (addr : Nat)
  deriving DecidableEq, Repr

/-- Why the model can refuse a command. -/
inductive Refusal where
  /-- Raised by an arm of `exec` for a command that has no meaning yet. Safe: nothing is claimed of it. No arm raises it. -/
  | notModelled (mnemonic : String)
  deriving DecidableEq, Repr

/-- The machine right after reset: 10_state.md R49 for the engine. The rest is the model's choice, named in
notes/assumptions/1.md (memory), notes/assumptions/4.md (platform) and notes/assumptions/3.md (the model's own fields). -/
def State.reset : State where
  ie := false
  busy := false
  done := false
  err := false
  busywr := false
  errcode := 0
  svalid := false
  cexh := false
  keyld := 0
  nonceld := 0
  counter := 0
  key := Vector.replicate 8 0
  nonce := Vector.replicate 3 0
  src := 0
  dst := 0
  len := 0
  dcap := 0
  state := Vector.replicate 16 0
  work := Vector.replicate 16 0
  ks := Vector.replicate 64 0
  curcmd := 0
  phase := .check
  ci := 0
  ibyte := 0
  mem := []
  base := 0
  memBad := []
  memSilent := []
  schedule := []
  resp := .none
  raced := false
  draws := 0

end Sys2Proof.Machine
end

