-- ==== Sys2Proof/Machine/Flags.lean ====
section
/-! DEFINITION. The flags and status words: the register views of STATUS, LOADED and CTRL (10_state.md), the error codes
(60_exceptions.md R201), the interrupt (R209), the W1C write (R27) and the counter update that sets CEXH (R151). -/

namespace Sys2Proof.Machine

/-- The errors a command can complete with (60_exceptions.md R201). -/
inductive ErrorCode where
  | invalidKeyLength | invalidNonceLength | bufferLengthMismatch | counterOverflow
  | notInitialized | addressOverflow | busError | illegalCommand
  deriving DecidableEq, Repr

/-- The code written to STATUS.ERRCODE (R201). -/
def ErrorCode.code : ErrorCode → BitVec 4
  | .invalidKeyLength => 1
  | .invalidNonceLength => 2
  | .bufferLengthMismatch => 3
  | .counterOverflow => 4
  | .notInitialized => 5
  | .addressOverflow => 6
  | .busError => 7
  | .illegalCommand => 8

/-- What STATUS reads: bits 31:12 and 7:6 are 0 (10_state.md R26). -/
def statusWord (s : State) : Word :=
  0#20 ++ s.errcode ++ 0#2 ++ BitVec.ofBool s.cexh ++ BitVec.ofBool s.svalid ++ BitVec.ofBool s.busywr
    ++ BitVec.ofBool s.err ++ BitVec.ofBool s.done ++ BitVec.ofBool s.busy

/-- What LOADED reads: NONCELD in bits 10:8, KEYLD in bits 7:0 (10_state.md R29). -/
def loadedWord (s : State) : Word := 0#21 ++ s.nonceld ++ s.keyld

/-- What CTRL reads: `zext_32(IE)` (10_state.md R25). -/
def ctrlWord (s : State) : Word := 0#31 ++ BitVec.ofBool s.ie

/-- The interrupt output, `CTRL.IE & STATUS.DONE` (60_exceptions.md R209). -/
def irq (s : State) : Bool := s.ie && s.done

/-- A host write of `v` to STATUS (10_state.md R27): the W1C bits are 1, 2 and 3, and bit 2 clears ERRCODE too. -/
def clearStatus (s : State) (v : Word) : State :=
  { s with
    done := s.done && !v.getLsbD 1
    err := s.err && !v.getLsbD 2
    errcode := if v.getLsbD 2 then 0 else s.errcode
    busywr := s.busywr && !v.getLsbD 3 }

/-- `counter_increment()` (42_keystream_commands.md R151). -/
def counterIncrement (s : State) : State :=
  { s with
    cexh := s.cexh || s.state[12] == 0xFFFFFFFF
    state := s.state.set 12 (s.state[12] + 1) }

end Sys2Proof.Machine
end

