-- ==== Sys2Proof/Machine/Operands.lean ====
section
/-! DEFINITION. The implicit operands of the commands (30_encoding.md R90) and the checks on them: the loaded key and nonce
(41_control_commands.md R131), CIPHER's preconditions (42_keystream_commands.md R153), its addresses, and its buffers. -/

namespace Sys2Proof.Machine

/-- The first failing check of the loaded key and nonce (R131, R153). -/
def loadedError (s : State) : Option ErrorCode :=
  if s.keyld ≠ 0xFF then some .invalidKeyLength
  else if s.nonceld ≠ 0b111 then some .invalidNonceLength
  else none

/-- `nblk`, the number of chunks, ceil(L/64) (R153). -/
def chunkCount (s : State) : Nat := (s.len.toNat + 63) / 64

/-- CIPHER's first failing precondition, in the order of R153; arithmetic is on unbounded integers. -/
def cipherError (s : State) : Option ErrorCode :=
  match loadedError s with
  | some e => some e
  | none =>
    if s.dcap.toNat < s.len.toNat then some .bufferLengthMismatch
    else if 2 ^ 32 < s.src.toNat + s.len.toNat ∨ 2 ^ 32 < s.dst.toNat + s.len.toNat then some .addressOverflow
    else if 2 ^ 32 < s.counter.toNat + chunkCount s then some .counterOverflow
    else none

/-- The address RD reads, `int(SRC) + CI` (R161). -/
def sourceAddr (s : State) : Nat := s.src.toNat + s.ci

/-- The address WR writes, `int(DST) + CI` (R161). -/
def destAddr (s : State) : Nat := s.dst.toNat + s.ci

/-- The keystream byte WR uses, `KS[CI mod 64]` (R161). -/
def keystreamByte (s : State) : Byte := s.ks[s.ci % 64]'(Nat.mod_lt s.ci (by decide))

/-- The byte WR writes: `IBYTE ^ KS[CI mod 64]` (R161), or a draw once the host has raced (20_memory.md R71). -/
def outputByte (s : State) : Byte :=
  if s.raced then Config.draw8 s.draws else s.ibyte ^^^ keystreamByte s

/-- Address `a` lies in CIPHER's input buffer [SRC, SRC + LEN). -/
def inSource (s : State) (a : Nat) : Bool := s.src.toNat ≤ a && a < s.src.toNat + s.len.toNat

/-- Address `a` lies in CIPHER's output buffer [DST, DST + LEN). -/
def inDest (s : State) (a : Nat) : Bool := s.dst.toNat ≤ a && a < s.dst.toNat + s.len.toNat

/-- BUSY = 1 after a CIPHER is accepted (20_memory.md R71); 0x00000003 is CIPHER's only word (30_encoding.md R89). -/
def cipherRunning (s : State) : Bool := s.busy && s.curcmd == 0x00000003

end Sys2Proof.Machine
end

