-- ==== Sys2Proof/Machine/Ops.lean ====
section
/-! DEFINITION. The shared operations: system memory and the DMA port (20_memory.md R62), accepting a command
(60_exceptions.md R204), completing one with or without an error (R205, R206), and the State and keystream writes that several
commands share. -/

namespace Sys2Proof.Machine

/-- The byte at address `a` (20_memory.md R60). -/
def Memory.read : Memory → Nat → Byte
  | [], _ => Config.unlistedByte
  | c :: m, a => if c.1 = a then c.2 else Memory.read m a

/-- Put one byte in front of a memory whose addresses are all higher, unless an unlisted address reads as it anyway. -/
def Memory.put (m : Memory) (a : Nat) (v : Byte) : Memory :=
  if v = Config.unlistedByte then m else (a, v) :: m

/-- Memory with the byte at `a` set to `v`, in canonical form. -/
def Memory.write : Memory → Nat → Byte → Memory
  | [], a, v => Memory.put [] a v
  | c :: m, a, v =>
    if a < c.1 then Memory.put (c :: m) a v
    else if a = c.1 then Memory.put m a v
    else c :: Memory.write m a v

/-- The canonical form: addresses strictly rising and below 2^32, and no byte that an unlisted address reads as. -/
abbrev Memory.wf (m : Memory) : Prop :=
  List.Pairwise (fun c d => c.1 < d.1) m ∧ ∀ c ∈ m, c.2 ≠ Config.unlistedByte ∧ c.1 < Config.addressSpace

/-- Whether a region holds the access of kind `k` at `a`. -/
def Region.covers (r : Region) (k : AccessKind) (a : Nat) : Bool :=
  r.kind == k && r.base ≤ a && a < r.base + r.size

/-- `MEM_OK(a, k)` (00_scope.md R6). -/
def memOk (s : State) (k : AccessKind) (a : Nat) : Bool := !s.memBad.any (·.covers k a)

/-- How the memory system answers a DMA byte access (20_memory.md R62). -/
inductive Answer where
  /-- It completes. -/
  | ok
  /-- A bus error. -/
  | busError
  /-- It is not answered, so the step does not happen. -/
  | never
  /-- The address is not below 2^32. -/
  | noSuchAddress
  deriving DecidableEq, Repr

/-- The answer to the DMA access of kind `k` at `a` (20_memory.md R62; notes/assumptions/4.md for the order of the tests). -/
def dmaAnswer (s : State) (k : AccessKind) (a : Nat) : Answer :=
  if Config.addressSpace ≤ a then .noSuchAddress
  else if s.memSilent.any (·.covers k a) then .never
  else if memOk s k a then .ok
  else .busError

/-- `s` with the coming moves `rest`: what is left when a move has been taken (notes/assumptions/2.md). -/
def setSchedule (s : State) (rest : List Move) : State := { s with schedule := rest }

/-- PHASE <- `p` (42_keystream_commands.md R161). -/
def setPhase (s : State) (p : Phase) : State := { s with phase := p }

/-- The response to a host access (notes/assumptions/3.md). -/
def respond (s : State) (r : Response) : State := { s with resp := r }

/-- A draw has been taken (notes/assumptions/5.md). -/
def countDraw (s : State) : State := { s with draws := s.draws + 1 }

/-- System memory at `a` <- `v` (20_memory.md R62). -/
def storeByte (s : State) (a : Nat) (v : Byte) : State := { s with mem := s.mem.write a v }

/-- Acceptance of command word `w` (60_exceptions.md R204). A new command has not been raced with. -/
def accept (s : State) (w : Word) : State :=
  { s with
    curcmd := w
    done := false
    err := false
    errcode := 0
    phase := .check
    busy := true
    raced := false }

/-- `finish(code)`, the completion every command ends by (60_exceptions.md R205). -/
def finish (s : State) (code : BitVec 4) : State :=
  { s with
    busy := false
    done := true
    err := if code = 0 then s.err else true
    errcode := if code = 0 then s.errcode else code
    phase := .check }

/-- `raise e`: complete with `e`'s code and no other effect (00_scope.md §6, 60_exceptions.md R206). -/
def raise (s : State) (e : ErrorCode) : State := finish s e.code

/-- `STATE <- init_state(KEY, COUNTER, NONCE); SVALID <- 1; CEXH <- 0` (41_control_commands.md R131, 42_keystream_commands.md
R155). -/
def captureState (s : State) : State :=
  { s with
    state := initState s.key s.counter s.nonce
    svalid := true
    cexh := false }

/-- `KS <- block(STATE, dr)`, with WORK left as `block`'s working buffer (40_datapath.md R107; notes/assumptions/11.md). -/
def generateBlock (s : State) (dr : Nat) : State :=
  { s with
    work := rounds dr s.state
    ks := block s.state dr }

/-- The clears of ZEROIZE (41_control_commands.md R132). -/
def zeroizeState (s : State) : State :=
  { s with
    key := Vector.replicate 8 0
    nonce := Vector.replicate 3 0
    keyld := 0
    nonceld := 0
    state := Vector.replicate 16 0
    work := Vector.replicate 16 0
    ks := Vector.replicate 64 0
    ibyte := 0
    svalid := false
    cexh := false }

end Sys2Proof.Machine
end

