-- ==== Sys2Proof/Machine/Control.lean ====
section
/-! DEFINITION. The control commands NOP, INIT and ZEROIZE (41_control_commands.md). -/

namespace Sys2Proof.Machine

/-- NOP (R130): `finish(0)`. -/
def execNop (s : State) : Host.Outcome State Fault Refusal := .next (finish s 0)

/-- INIT (R131): the loaded checks, then the State Initializer. -/
def execInit (s : State) : Host.Outcome State Fault Refusal :=
  match loadedError s with
  | some e => .next (raise s e)
  | none => .next (finish (captureState s) 0)

/-- ZEROIZE (R132). -/
def execZeroize (s : State) : Host.Outcome State Fault Refusal := .next (finish (zeroizeState s) 0)

end Sys2Proof.Machine
end

