-- ==== Sys2Proof/Machine/Keystream.lean ====
section
/-! DEFINITION. The keystream commands BLOCK and CIPHER (42_keystream_commands.md). CIPHER is the step machine of R161: its
meaning takes the step that PHASE names. -/

namespace Sys2Proof.Machine

/-- BLOCK (R150): the SVALID and CEXH checks, then one block from STATE, then the increment if INC = 1 (R151). -/
def execBlock (dr : Nat) (inc : Bool) (s : State) : Host.Outcome State Fault Refusal :=
  if s.svalid = false then .next (raise s .notInitialized)
  else if s.cexh = true then .next (raise s .counterOverflow)
  else if inc then .next (finish (counterIncrement (generateBlock s dr)) 0)
  else .next (finish (generateBlock s dr) 0)

/-- The initialization of R155, and CI <- 0 (R161). -/
def cipherStart (s : State) : State := { captureState s with ci := 0 }

/-- CIPHER at PHASE = CHECK (R161): the checks of R153, the initialization of R155, CI <- 0; with LEN = 0 it completes (R163). -/
def cipherCheck (s : State) : State :=
  match cipherError s with
  | some e => raise s e
  | none =>
    if s.len = 0 then finish (cipherStart s) 0 else setPhase (cipherStart s) .gen

/-- CIPHER at PHASE = GEN (R161): one block, then the increment. -/
def cipherGen (s : State) : State :=
  setPhase (counterIncrement (generateBlock s Config.cipherDR)) .rd

/-- CIPHER at PHASE = RD, the access answered: IBYTE <- the byte read (R161). The read leaves memory as it is: DESIGN CHOICE, whether a
region has read side effects is the platform's business (20_memory.md R66; notes/assumptions/17.md). -/
def cipherFetch (s : State) : State :=
  { s with
    ibyte := s.mem.read (sourceAddr s)
    phase := .wr }

/-- CIPHER at PHASE = WR, the access answered: write the output byte and advance CI (R161). Once the host has raced, the byte is a
draw (20_memory.md R71). -/
def cipherStore (s : State) : State :=
  { s with
    mem := s.mem.write (destAddr s) (outputByte s)
    draws := if s.raced then s.draws + 1 else s.draws
    ci := s.ci + 1 }

/-- Where CIPHER goes after WR: done, the next chunk, or the next byte (R161). -/
def cipherAdvance (s : State) : State :=
  if s.ci = s.len.toNat then finish s 0
  else if s.ci % 64 = 0 then setPhase s .gen
  else setPhase s .rd

/-- One DMA step of CIPHER (R161, R162; 20_memory.md R62): `done` if the access is answered; BusError if MEM_OK is false; no
change while memory does not answer. -/
def dmaStep (s : State) (k : AccessKind) (a : Nat) (done : State) : Host.Outcome State Fault Refusal :=
  match dmaAnswer s k a with
  | .ok => .next done
  | .busError => .next (raise s .busError)
  | .never => .next s
  | .noSuchAddress => .fault (.noSuchAddress k a)

/-- CIPHER (R152, R161): the step PHASE names. -/
def execCipher (s : State) : Host.Outcome State Fault Refusal :=
  match s.phase with
  | .check => .next (cipherCheck s)
  | .gen => .next (cipherGen s)
  | .rd => dmaStep s .read (sourceAddr s) (cipherFetch s)
  | .wr => dmaStep s .write (destAddr s) (cipherAdvance (cipherStore s))

end Sys2Proof.Machine
end

