-- ==== Sys2Proof/Machine/Dispatch.lean ====
section
/-! DEFINITION. The dispatch of a decoded command to its meaning (41_control_commands.md R133). -/

namespace Sys2Proof.Machine

def exec (i : Instr) (s : State) : Host.Outcome State Fault Refusal :=
  match i with
  | .nop => Sys2Proof.Machine.execNop s
  | .init => Sys2Proof.Machine.execInit s
  | .block dr inc => Sys2Proof.Machine.execBlock dr inc s
  | .cipher => Sys2Proof.Machine.execCipher s
  | .zeroize => Sys2Proof.Machine.execZeroize s

end Sys2Proof.Machine
end

