-- ==== Sys2Proof/Machine/Engine.lean ====
section
/-! DEFINITION. The engine's turn: decode CURCMD and dispatch (41_control_commands.md R133), or go on with a CIPHER
(42_keystream_commands.md R161). -/

namespace Sys2Proof.Machine

/-- `engine_step_check()` (R133): an illegal word completes with IllegalCommand. -/
def checkStep (s : State) : Host.Outcome State Fault Refusal :=
  match decode s.curcmd with
  | .ok i => exec i s
  | .error _ => .next (raise s .illegalCommand)

/-- The engine's turn: none while BUSY = 0 (60_exceptions.md R205); the dispatch step at PHASE = CHECK (R133); a further step of
CIPHER at any other PHASE (R161; notes/assumptions/13.md). -/
def engineTurn (s : State) : Host.Outcome State Fault Refusal :=
  if s.busy then
    match s.phase with
    | .check => checkStep s
    | .gen => exec .cipher s
    | .rd => exec .cipher s
    | .wr => exec .cipher s
  else .next s

/-- Acceptance of the word `w` as the host's CMD write would make it, with the engine's turn next: what stands for the fetch of a
command (10_state.md R23, R28). -/
def presentCommand (s : State) (w : Word) : State :=
  let t := accept s w
  { t with schedule := .engine :: t.schedule }

end Sys2Proof.Machine
end

