-- ==== Sys2Proof/Machine/HostPort.lean ====
section
/-! DEFINITION. The host's side: the register window (10_state.md R20 to R37), the host's direct accesses to system memory
(20_memory.md R60, R69) with the race of R71, and the reset input (70_reset_and_hazards.md R240, R241). -/

namespace Sys2Proof.Machine

/-- The registers of the window (10_state.md R20). -/
inductive Reg where
  | id | ctrl | status | cmd | loaded | counter | sctr
  | key (i : Fin 8) | nonce (i : Fin 3)
  | src | dst | len | dcap
  | ks (j : Fin 16)
  | reserved
  deriving DecidableEq, Repr

/-- The register at a word-aligned offset of the window (R20). -/
def regAt (o : Nat) : Reg :=
  if o = 0x000 then .id
  else if o = 0x004 then .ctrl
  else if o = 0x008 then .status
  else if o = 0x00C then .cmd
  else if o = 0x010 then .loaded
  else if o = 0x014 then .counter
  else if o = 0x018 then .sctr
  else if h : 0x020 ≤ o ∧ o < 0x040 then .key ⟨(o - 0x020) / 4, by omega⟩
  else if h : 0x040 ≤ o ∧ o < 0x04C then .nonce ⟨(o - 0x040) / 4, by omega⟩
  else if o = 0x050 then .src
  else if o = 0x054 then .dst
  else if o = 0x058 then .len
  else if o = 0x05C then .dcap
  else if h : 0x100 ≤ o ∧ o < 0x140 then .ks ⟨(o - 0x100) / 4, by omega⟩
  else .reserved

/-- The offset of a register (R20); `reserved` stands for many, of which this is the first. -/
def Reg.offset : Reg → Nat
  | .id => 0x000
  | .ctrl => 0x004
  | .status => 0x008
  | .cmd => 0x00C
  | .loaded => 0x010
  | .counter => 0x014
  | .sctr => 0x018
  | .reserved => 0x01C
  | .key i => 0x020 + 4 * i.val
  | .nonce i => 0x040 + 4 * i.val
  | .src => 0x050
  | .dst => 0x054
  | .len => 0x058
  | .dcap => 0x05C
  | .ks j => 0x100 + 4 * j.val

/-- The write-protected registers (R22). -/
def Reg.writeProtected : Reg → Bool
  | .cmd | .counter | .key _ | .nonce _ | .src | .dst | .len | .dcap => true
  | .id | .ctrl | .status | .loaded | .sctr | .ks _ | .reserved => false

/-- The registers whose reads are draws while BUSY = 1 (R31, R36, 70_reset_and_hazards.md R246). -/
def Reg.drawnWhileBusy : Reg → Bool
  | .sctr | .ks _ => true
  | .id | .ctrl | .status | .cmd | .loaded | .counter | .key _ | .nonce _ | .src | .dst | .len | .dcap | .reserved => false

/-- KS j as a word, `le_word(KS[4j], …, KS[4j+3])` (R36). -/
def ksWord (s : State) (j : Fin 16) : Word :=
  leWord (s.ks[4 * j.val]'(by omega)) (s.ks[4 * j.val + 1]'(by omega))
    (s.ks[4 * j.val + 2]'(by omega)) (s.ks[4 * j.val + 3]'(by omega))

/-- What a register reads while BUSY = 0 (R24 to R37). -/
def regValue (s : State) : Reg → Word
  | .id => Config.idWord
  | .ctrl => ctrlWord s
  | .status => statusWord s
  | .cmd => 0
  | .loaded => loadedWord s
  | .counter => s.counter
  | .sctr => s.state[12]
  | .key _ => 0
  | .nonce i => s.nonce[i]
  | .src => s.src
  | .dst => s.dst
  | .len => s.len
  | .dcap => s.dcap
  | .ks j => ksWord s j
  | .reserved => 0

/-- A register read: its value, or a draw for KS and SCTR while BUSY = 1 (R31, R36). Nothing else changes (R37). -/
def regRead (s : State) (r : Reg) : State :=
  if s.busy && r.drawnWhileBusy then respond (countDraw s) (.data (Config.draw32 s.draws))
  else respond s (.data (regValue s r))

/-- The write effect of a register (R24 to R37), its protection aside. -/
def regEffect (s : State) (v : Word) : Reg → State
  | .ctrl => { s with ie := v.getLsbD 0 }
  | .status => clearStatus s v
  | .cmd => accept s v
  | .counter => { s with counter := v }
  | .key i => { s with key := s.key.set i v, keyld := s.keyld ||| (1#8 <<< i.val) }
  | .nonce i => { s with nonce := s.nonce.set i v, nonceld := s.nonceld ||| (1#3 <<< i.val) }
  | .src => { s with src := v }
  | .dst => { s with dst := v }
  | .len => { s with len := v }
  | .dcap => { s with dcap := v }
  | .id => s
  | .loaded => s
  | .sctr => s
  | .ks _ => s
  | .reserved => s

/-- BUSYWR <- 1, the one effect of a dropped write (R22). -/
def dropWrite (s : State) : State := { s with busywr := true }

/-- A register write (R22): a write to a write-protected register while BUSY = 1 is dropped and sets BUSYWR. -/
def regWrite (s : State) (r : Reg) (v : Word) : State :=
  if s.busy && r.writeProtected then dropWrite s else regEffect s v r

/-- Whether the window decodes bus address `addr` (R20; notes/assumptions/9.md). -/
def inWindow (s : State) (addr : Nat) : Bool := s.base ≤ addr && addr < s.base + Config.windowSize

/-- Whether an access to the window is defined: 32 bits at a multiple of 4 (R21). -/
def definedAccess (addr bits : Nat) : Bool := bits == 32 && addr % 4 == 0

/-- A host bus read (R20, R21). -/
def busRead (s : State) (addr bits : Nat) : State :=
  if !inWindow s addr then respond s .undecoded
  else if !definedAccess addr bits then respond s .busError
  else regRead s (regAt (addr - s.base))

/-- A host bus write (R20, R21). -/
def busWrite (s : State) (addr bits : Nat) (v : Word) : State :=
  if !inWindow s addr then respond s .undecoded
  else if !definedAccess addr bits then respond s .busError
  else respond (regWrite s (regAt (addr - s.base)) v) .ack

/-- The `n` bytes from `dst` on replaced by draws, the first of them draw `d`; an address that does not exist is passed over. -/
def scramble (m : Memory) (dst d : Nat) : Nat → Memory
  | 0 => m
  | n + 1 =>
    if dst + n < Config.addressSpace then (scramble m dst d n).write (dst + n) (Config.draw8 (d + n))
    else scramble m dst d n

/-- The host races with the running CIPHER (20_memory.md R71): every byte of the output buffer becomes a draw, written already or not,
and every byte written later is a draw again (notes/assumptions/6.md). -/
def race (s : State) : State :=
  { s with
    mem := scramble s.mem s.dst.toNat s.draws s.len.toNat
    draws := s.draws + s.len.toNat
    raced := true }

/-- A host read of the system memory byte at `a` (R69; notes/assumptions/10.md): a draw, and a race, for a byte of the output buffer of
a running CIPHER (R71). Outside a race it leaves memory as it is (notes/assumptions/17.md). -/
def hostLoad (s : State) (a : BitVec 32) : State :=
  if cipherRunning s && inDest s a.toNat then
    race (respond (countDraw s) (.byte (Config.draw8 s.draws)))
  else respond s (.byte (s.mem.read a.toNat))

/-- A host write of the system memory byte at `a` (R69; notes/assumptions/10.md): a race for a byte of either buffer of a running CIPHER
(R71). -/
def hostStore (s : State) (a : BitVec 32) (v : Byte) : State :=
  let t := respond (storeByte s a.toNat v) .ack
  if cipherRunning s && (inSource s a.toNat || inDest s a.toNat) then race t else t

/-- The `rst` input (70_reset_and_hazards.md R240): the engine takes its reset values; system memory keeps what completed steps
wrote (R241). The platform, the other agents' coming moves and the draws already taken are not the engine's
(notes/assumptions/14.md). -/
def resetEngine (s : State) : State :=
  { State.reset with
    mem := s.mem
    base := s.base
    memBad := s.memBad
    memSilent := s.memSilent
    schedule := s.schedule
    resp := s.resp
    draws := s.draws }

/-- One move of an agent other than the engine; the engine's own turn is not taken here. -/
def environmentMove (s : State) : Move → State
  | .engine => s
  | .busRead addr bits => busRead s addr bits
  | .busWrite addr bits v => busWrite s addr bits v
  | .hostLoad a => hostLoad s a
  | .hostStore a v => hostStore s a v
  | .memoryAnswers silent => { s with memSilent := silent }
  | .reset => resetEngine s

end Sys2Proof.Machine
end

