-- ==== Sys2Proof/Machine/Step.lean ====
section
/-! DEFINITION. One step of the machine: the next move of the schedule, or the engine's turn when no move is left
(00_scope.md R7, 20_memory.md R69). -/

namespace Sys2Proof.Machine

/-- One atomic step of one agent (notes/assumptions/2.md, notes/assumptions/12.md). -/
def step (s : State) : Host.Outcome State Fault Refusal :=
  match s.schedule with
  | [] => engineTurn s
  | .engine :: rest => engineTurn (setSchedule s rest)
  | m :: rest => .next (environmentMove (setSchedule s rest) m)

/-- `s` with the command word `w` accepted and the engine's turn next, so that the next step decodes and runs it. The engine
fetches nothing: a command comes to run by being written to CMD (10_state.md R23, R28; notes/assumptions/8.md). -/
def State.withFetchWord (s : State) (nbits w : Nat) : State :=
  presentCommand s (BitVec.ofNat 32 (w % 2 ^ nbits))

end Sys2Proof.Machine
end

