-- ==== Sys2Proof/Machine/Assembler.lean ====
section
/-! DEFINITION. The assembler syntax of commands (30_encoding.md R86) and the pseudo-commands (R87). -/

namespace Sys2Proof.Machine

/-- The value of one digit, decimal or hexadecimal. -/
def digitValue (c : Char) : Option Nat :=
  if '0' ≤ c ∧ c ≤ '9' then some (c.toNat - '0'.toNat)
  else if 'a' ≤ c ∧ c ≤ 'f' then some (c.toNat - 'a'.toNat + 10)
  else if 'A' ≤ c ∧ c ≤ 'F' then some (c.toNat - 'A'.toNat + 10)
  else none

/-- The number that digits of a radix spell, most significant first, after `acc`. -/
def digitsValue (radix acc : Nat) : List Char → Option Nat
  | [] => some acc
  | c :: cs =>
    match digitValue c with
    | some d => if d < radix then digitsValue radix (acc * radix + d) cs else none
    | none => none

/-- `<n>`, a decimal or 0x-prefixed number (R86; notes/assumptions/16.md). -/
def numberValue : List Char → Option Nat
  | [] => none
  | ['0', 'x'] => none
  | '0' :: 'x' :: cs => digitsValue 16 0 cs
  | cs => digitsValue 10 0 cs

/-- BLOCK with a count written as `cs`, if the count is 0 to 31 (R86). -/
def blockOf (cs : List Char) (inc : Bool) : Option Instr :=
  match numberValue cs with
  | some n => if n ≤ 31 then some (.block n inc) else none
  | none => none

/-- The command a line of assembler text spells (R86, R87); any other spelling is not a command. -/
def parseCommand : List Char → Option Instr
  | ['N', 'O', 'P'] => some .nop
  | ['I', 'N', 'I', 'T'] => some .init
  | ['C', 'I', 'P', 'H', 'E', 'R'] => some .cipher
  | ['Z', 'E', 'R', 'O', 'I', 'Z', 'E'] => some .zeroize
  | ['B', 'L', 'O', 'C', 'K', '2', '0'] => some .block20
  | ['B', 'L', 'O', 'C', 'K', '2', '0', '.', 'I', 'N', 'C'] => some .block20Inc
  | 'B' :: 'L' :: 'O' :: 'C' :: 'K' :: ' ' :: 'd' :: 'r' :: '=' :: cs =>
    if (cs.dropWhile (· ≠ ',')) = [] then blockOf cs false
    else if (cs.dropWhile (· ≠ ',')) = [',', ' ', 'i', 'n', 'c'] then blockOf (cs.takeWhile (· ≠ ',')) true
    else none
  | _ => none

/-- The decimal digits of a count below 100. -/
def countChars (n : Nat) : List Char :=
  if n < 10 then [Char.ofNat (48 + n)] else [Char.ofNat (48 + n / 10), Char.ofNat (48 + n % 10)]

/-- The assembler text of a command (R86). -/
def commandText : Instr → List Char
  | .nop => ['N', 'O', 'P']
  | .init => ['I', 'N', 'I', 'T']
  | .block dr false => ['B', 'L', 'O', 'C', 'K', ' ', 'd', 'r', '='] ++ countChars dr
  | .block dr true => ['B', 'L', 'O', 'C', 'K', ' ', 'd', 'r', '='] ++ countChars dr ++ [',', ' ', 'i', 'n', 'c']
  | .cipher => ['C', 'I', 'P', 'H', 'E', 'R']
  | .zeroize => ['Z', 'E', 'R', 'O', 'I', 'Z', 'E']

end Sys2Proof.Machine
end

