-- ==== Sys2Proof/Safety.lean ====
section
/-! DEFINITION. What counts as a good state and a safe step, in the terms the statements use: whose turn it is, the STATUS
invariants (10_state.md R26), the progress of a running CIPHER (42_keystream_commands.md R161), the invariant of the whole engine,
and CIPHER's output so far (R156, R159). -/

namespace Sys2Proof.Machine

/-- The engine moves next, and `rest` are the moves after that (00_scope.md R7). -/
abbrev EngineMoves (s : State) (rest : List Move) : Prop :=
  (s.schedule = [] ∧ rest = []) ∨ s.schedule = .engine :: rest

/-- The next move is an aligned 32-bit host write of `v` at offset `o` of the window (10_state.md R20, R21). -/
abbrev HostWrites (s : State) (o : Nat) (v : Word) (rest : List Move) : Prop :=
  s.base % 4096 = 0 ∧ o % 4 = 0 ∧ o < 0x1000 ∧ s.schedule = .busWrite (s.base + o) 32 v :: rest

/-- The next move is an aligned 32-bit host read at offset `o` of the window (10_state.md R20, R21). -/
abbrev HostReads (s : State) (o : Nat) (rest : List Move) : Prop :=
  s.base % 4096 = 0 ∧ o % 4 = 0 ∧ o < 0x1000 ∧ s.schedule = .busRead (s.base + o) 32 :: rest

/-- A host read of `bits` bits at bus address `addr` returns a draw: an aligned 32-bit read of SCTR or a KS register while BUSY = 1
(10_state.md R21, R31, R36, 70_reset_and_hazards.md R246). -/
abbrev ReadIsDraw (s : State) (addr bits : Nat) : Prop :=
  s.busy = true ∧ bits = 32 ∧ addr % 4 = 0 ∧
    (addr = s.base + 0x018 ∨ (s.base + 0x100 ≤ addr ∧ addr < s.base + 0x140))

/-- The offsets of the write-protected registers: CMD, COUNTER, KEY0 to KEY7, NONCE0 to NONCE2, SRC, DST, LEN, DCAP (10_state.md
R20, R22). -/
abbrev ProtectedOffset (o : Nat) : Prop :=
  o = 0x00C ∨ o = 0x014 ∨ (0x020 ≤ o ∧ o < 0x04C) ∨ (0x050 ≤ o ∧ o < 0x060)

/-- The reserved offsets (10_state.md R37). -/
abbrev ReservedOffset (o : Nat) : Prop :=
  o = 0x01C ∨ o = 0x04C ∨ (0x060 ≤ o ∧ o < 0x100) ∨ (0x140 ≤ o ∧ o < 0x1000)

/-- The offsets of the read-only registers ID, LOADED, SCTR, KS0 to KS15, and the reserved offsets (10_state.md R20, R37). -/
abbrev UnwritableOffset (o : Nat) : Prop :=
  o = 0x000 ∨ o = 0x010 ∨ o = 0x018 ∨ (0x100 ≤ o ∧ o < 0x140) ∨ ReservedOffset o

/-- Memory answers the DMA access of kind `k` at `a`, an existing address, with MEM_OK true (20_memory.md R62). -/
abbrev Answered (s : State) (k : AccessKind) (a : Nat) : Prop :=
  a < 2 ^ 32 ∧ (∀ r ∈ s.memSilent, r.covers k a = false) ∧ ∀ r ∈ s.memBad, r.covers k a = false

/-- Memory answers the DMA access of kind `k` at `a`, an existing address, with a bus error (20_memory.md R62). -/
abbrev AnsweredByError (s : State) (k : AccessKind) (a : Nat) : Prop :=
  a < 2 ^ 32 ∧ (∀ r ∈ s.memSilent, r.covers k a = false) ∧ ∃ r ∈ s.memBad, r.covers k a = true

/-- Memory does not answer the DMA access of kind `k` at `a`, an existing address (20_memory.md R62). -/
abbrev Unanswered (s : State) (k : AccessKind) (a : Nat) : Prop :=
  a < 2 ^ 32 ∧ ∃ r ∈ s.memSilent, r.covers k a = true

/-- The step neither faults nor refuses. -/
def StepAnswers (s : State) : Prop := ∃ t, step s = .next t

/-- The invariants R26 names: ERR = 0 implies ERRCODE = 0; BUSY = 1 implies DONE = 0 and ERR = 0. -/
structure StatusInv (s : State) : Prop where
  noError : s.err = false → s.errcode = 0
  running : s.busy = true → s.done = false ∧ s.err = false

/-- How many blocks the running CIPHER has generated (R161): GEN generates the one for the chunk of CI. -/
def blocksGenerated (s : State) : Nat :=
  match s.phase with
  | .check => 0
  | .gen => s.ci / 64
  | .rd => s.ci / 64 + 1
  | .wr => s.ci / 64 + 1

/-- STATE as CIPHER holds it when its counter has advanced by `k` (R155, R158). -/
def streamState (s : State) (k : Nat) : Vector Word 16 :=
  initState s.key (s.counter + BitVec.ofNat 32 k) s.nonce

/-- What holds between the steps of a CIPHER that passed its checks (R153 to R158, R161). -/
structure CipherProgress (s : State) : Prop where
  busy : s.busy = true
  command : s.curcmd = 0x00000003
  checked : cipherError s = none
  index : s.ci < s.len.toNat
  chunkStart : s.phase = .gen → s.ci % 64 = 0
  svalid : s.svalid = true
  state : s.state = streamState s (blocksGenerated s)
  cexh : s.cexh = true ↔ s.counter.toNat + blocksGenerated s = 2 ^ 32
  ks : s.phase ≠ .gen → s.ks = block (streamState s (s.ci / 64)) Config.cipherDR

/-- The invariant of the engine: canonical memory, STATUS (R26), PHASE = CHECK while idle (60_exceptions.md R205), a running
CIPHER's progress, and what SVALID and CEXH say of STATE (10_state.md R40, R42, R43). -/
structure EngineInv (s : State) : Prop where
  memory : s.mem.wf
  status : StatusInv s
  idle : s.busy = false → s.phase = .check
  cipher : s.phase ≠ .check → CipherProgress s
  constants : s.svalid = true → s.state[0] = Config.const0 ∧ s.state[1] = Config.const1 ∧
    s.state[2] = Config.const2 ∧ s.state[3] = Config.const3
  cleared : s.svalid = false → s.state = Vector.replicate 16 0 ∧ s.cexh = false
  exhausted : s.cexh = true → s.state[12] = 0

/-- No byte belongs to both of CIPHER's buffers. -/
def BuffersDisjoint (s : State) : Prop := ∀ a, inSource s a = true → inDest s a = false

/-- What an unraced CIPHER has done so far (R156): the byte it holds between RD and WR is the input byte, and with disjoint buffers
every output byte written is the input byte XOR the keystream byte of its position (R112). -/
structure CipherOutput (s : State) : Prop where
  held : s.phase = .wr → s.raced = false → s.ibyte = s.mem.read (sourceAddr s)
  written : s.phase ≠ .check → s.raced = false → BuffersDisjoint s → ∀ i, i < s.ci →
    s.mem.read (s.dst.toNat + i) = s.mem.read (s.src.toNat + i) ^^^ keystream s.key s.counter s.nonce i

/-- Memory answers every access of the CIPHER that `s` is about to run (20_memory.md R61, R62). -/
abbrev AllAnswered (s : State) : Prop :=
  ∀ i, i < s.len.toNat → Answered s .read (s.src.toNat + i) ∧ Answered s .write (s.dst.toNat + i)

/-- The codes a command can complete with (60_exceptions.md R202). -/
def possibleCodes : Instr → List (BitVec 4)
  | .nop => [0]
  | .init => [0, 1, 2]
  | .block _ _ => [0, 4, 5]
  | .cipher => [0, 1, 2, 3, 4, 6, 7]
  | .zeroize => [0]

end Sys2Proof.Machine
end

