-- ==== Sys2Proof/Certificates/Slice0/Obligations.lean ====
section
/-! DEFINITION. The statements for the provers, from the numbered rules of spec/. Each docstring names the rule it formalises. -/

open Sys2Proof Sys2Proof.Machine

/-! ## Encoding (30_encoding.md) -/

/-- R81, R83, R89: decoding the word of a command gives the command back, for every command and every operand its fields hold. -/
def Obligations.DecodeOfEncode : Prop :=
  ∀ i : Instr, i.WellFormed → decode (encode i) = .ok i

/-- R80, R84, R85: a word that decodes is the word of exactly the command it decodes to, and the command is well formed. -/
def Obligations.EncodeOfDecode : Prop :=
  ∀ (w : Word) (i : Instr), decode w = .ok i → i.WellFormed ∧ encode i = w

/-- R84: a word is legal exactly when it decodes, and the engine completes an accepted illegal word with IllegalCommand and no
other effect. -/
def Obligations.IllegalWordCompletes : Prop :=
  (∀ w : Word,
    (fieldRsv2 w = 0 ∧ fieldRsv1 w = 0 ∧ fieldRsv0 w = 0 ∧
        (fieldOp w = 0 ∨ fieldOp w = 1 ∨ fieldOp w = 2 ∨ fieldOp w = 3 ∨ fieldOp w = 4) ∧
        (fieldOp w = 2 ∨ (fieldDr w = 0 ∧ fieldInc w = false)) ↔ ∃ i, decode w = .ok i) ∧
      (legal w = true ↔ ∃ i, decode w = .ok i)) ∧
  ∀ (s : State) (rest : List Move), EngineMoves s rest → s.busy = true → s.phase = .check → legal s.curcmd = false →
    step s = .next { s with schedule := rest, busy := false, done := true, err := true, errcode := 8 }

/-- R89: exactly 68 words are legal: the words of NOP, INIT, CIPHER and ZEROIZE, and for each dr in 0..31 and inc in 0..1 the word
0x00000002 + (dr << 16) + (inc << 8) of BLOCK. -/
def Obligations.SixtyEightLegalWords : Prop :=
  (legalInstrs.map encode).length = 68 ∧ (legalInstrs.map encode).Nodup ∧
  (∀ w : Word, legal w = true ↔ w ∈ legalInstrs.map encode) ∧
  (∀ w : Word, decode w = .ok .nop ↔ w = 0x00000000) ∧ (∀ w : Word, decode w = .ok .init ↔ w = 0x00000001) ∧
  (∀ w : Word, decode w = .ok .cipher ↔ w = 0x00000003) ∧ (∀ w : Word, decode w = .ok .zeroize ↔ w = 0x00000004) ∧
  ∀ (w : Word) (dr : Nat) (inc : Bool), decode w = .ok (.block dr inc) ↔
    dr ≤ 31 ∧ w = 0x00000002 + (BitVec.ofNat 32 dr <<< 16) + (BitVec.ofNat 32 inc.toNat <<< 8)

/-- R81, R83, 95_test_vectors.md 2.10: words written out from the field table decode to the commands they stand for. -/
def Obligations.WordsWrittenOutDecode : Prop :=
  decode 0b00000000000000000000000000000000 = .ok .nop ∧
  decode 0b00000000000000000000000000000001 = .ok .init ∧
  decode 0b00000000000010100000000000000010 = .ok (.block 10 false) ∧
  decode 0b00000000000111110000000100000010 = .ok (.block 31 true) ∧
  decode 0b00000000000000000000000000000011 = .ok .cipher ∧
  decode 0b00000000000000000000000000000100 = .ok .zeroize ∧
  legal 0b00000000001000000000000000000010 = false ∧
  legal 0b00000000000000000000000100000001 = false

/-- R86, R87: the assembler text of a command reads back as the command, and the pseudo-commands are their expansions. -/
def Obligations.AssemblerReadsItsText : Prop :=
  (∀ i : Instr, i.WellFormed → parseCommand (commandText i) = some i) ∧
  encode .block20 = 0x000A0002 ∧ encode .block20Inc = 0x000A0102

/-! ## The step (00_scope.md R7, 41_control_commands.md R133) -/

/-- R133: at PHASE = CHECK the engine's step runs the decoded command, on the state with the schedule moved on. -/
def Obligations.StepRunsDecodedCommand : Prop :=
  ∀ (s : State) (rest : List Move) (i : Instr), EngineMoves s rest → s.busy = true → s.phase = .check →
    decode s.curcmd = .ok i → step s = exec i { s with schedule := rest }

/-- R161, R205, R242: at any other PHASE the engine's step goes on with the CIPHER, and while BUSY = 0 its turn changes nothing. Two
points are the model's choice: that it goes on so whatever CURCMD holds (notes/assumptions/13.md), and that an idle engine's turn is a
step at all (notes/assumptions/2.md). -/
def Obligations.StepContinuesOrIdles : Prop :=
  ∀ (s : State) (rest : List Move), EngineMoves s rest →
    (s.busy = true → s.phase ≠ .check → step s = exec .cipher { s with schedule := rest }) ∧
    (s.busy = false → step s = .next { s with schedule := rest })

/-- R204, R133: a word presented as a command (the model's stand-in for a CMD write, notes/assumptions/8.md) is accepted and run by the
very next step. -/
def Obligations.PresentedCommandRuns : Prop :=
  ∀ (s : State) (nbits w : Nat) (i : Instr), decodeTableWord nbits w = some i →
    step (s.withFetchWord nbits w) = exec i
      { s with
        curcmd := encode i, done := false, err := false, errcode := 0, phase := .check, busy := true, raced := false }

/-! ## The control commands (41_control_commands.md) -/

/-- R130: NOP completes without an error and touches nothing else; the interrupt follows CTRL.IE. -/
def Obligations.NopCompletes : Prop :=
  ∀ s : State, exec .nop s = .next { s with busy := false, done := true, phase := .check } ∧
    irq { s with busy := false, done := true, phase := .check } = s.ie

/-- R131, R109, R110: with key and nonce loaded INIT builds STATE from the constant, KEY, COUNTER and NONCE, sets SVALID, clears CEXH,
and changes nothing else but the completion. -/
def Obligations.InitBuildsState : Prop :=
  ∀ s : State, s.keyld = 0xFF → s.nonceld = 0b111 →
    exec .init s = .next { s with
      state := #v[0x61707865, 0x3320646e, 0x79622d32, 0x6b206574, s.key[0], s.key[1], s.key[2], s.key[3], s.key[4], s.key[5],
        s.key[6], s.key[7], s.counter, s.nonce[0], s.nonce[1], s.nonce[2]]
      svalid := true, cexh := false, busy := false, done := true, phase := .check }

/-- R131: INIT with an unloaded key completes with InvalidKeyLength, else with an unloaded nonce with InvalidNonceLength, and
changes nothing else. -/
def Obligations.InitRejectsUnloaded : Prop :=
  ∀ s : State,
    (s.keyld ≠ 0xFF → exec .init s = .next { s with
      busy := false, done := true, err := true, errcode := 1, phase := .check }) ∧
    (s.keyld = 0xFF → s.nonceld ≠ 0b111 → exec .init s = .next { s with
      busy := false, done := true, err := true, errcode := 2, phase := .check })

/-- R132: ZEROIZE clears KEY, NONCE, LOADED, STATE, WORK, KS, IBYTE, SVALID and CEXH, completes, and keeps everything else. -/
def Obligations.ZeroizeClears : Prop :=
  ∀ s : State, exec .zeroize s = .next { s with
    key := Vector.replicate 8 0, nonce := Vector.replicate 3 0, keyld := 0, nonceld := 0
    state := Vector.replicate 16 0, work := Vector.replicate 16 0, ks := Vector.replicate 64 0, ibyte := 0
    svalid := false, cexh := false, busy := false, done := true, phase := .check }

/-! ## BLOCK (42_keystream_commands.md R150, R151) -/

/-- R150, R107, R151: with SVALID = 1 and CEXH = 0, BLOCK writes KS with the serialized feedforward of DR double rounds, increments the
counter word only if INC = 1, and changes nothing else but WORK, which keeps what notes/assumptions/11.md says, and the completion. -/
def Obligations.BlockWritesKeystream : Prop :=
  ∀ (s : State) (dr : Nat) (inc : Bool), s.svalid = true → s.cexh = false →
    ∃ t, exec (.block dr inc) s = .next t ∧
      (∀ i j : Nat, ∀ hi : i < 16, ∀ hj : j < 4,
        t.ks[4 * i + j] = ((((rounds dr s.state)[i] + s.state[i]) >>> (8 * j)).setWidth 8 : Byte)) ∧
      (inc = false → t.state = s.state ∧ t.cexh = false) ∧
      (inc = true → t.state[12] = s.state[12] + 1 ∧ (∀ i : Nat, ∀ hi : i < 16, i ≠ 12 → t.state[i] = s.state[i]) ∧
        (t.cexh = true ↔ s.state[12] = 0xFFFFFFFF)) ∧
      t = { s with
        ks := t.ks, work := rounds dr s.state, state := t.state, cexh := t.cexh
        busy := false, done := true, phase := .check }

/-- R150: BLOCK without a State completes with NotInitialized, else with an exhausted counter with CounterOverflow, and changes
nothing else. -/
def Obligations.BlockRejections : Prop :=
  ∀ (s : State) (dr : Nat) (inc : Bool),
    (s.svalid = false → exec (.block dr inc) s = .next { s with
      busy := false, done := true, err := true, errcode := 5, phase := .check }) ∧
    (s.svalid = true → s.cexh = true → exec (.block dr inc) s = .next { s with
      busy := false, done := true, err := true, errcode := 4, phase := .check })

/-- R112, R164: BLOCK20.INC on the State of counter c + n gives the 64 keystream bytes of chunk n, and leaves the State of counter
c + n + 1. Where c + n is 2^32 or more R112 defines no keystream, and the counter wraps as notes/assumptions/19.md says. -/
def Obligations.BlockGivesKeystreamChunk : Prop :=
  ∀ (s : State) (k : Vector Word 8) (c : Word) (nn : Vector Word 3) (n : Nat), s.svalid = true → s.cexh = false →
    s.state = initState k (c + BitVec.ofNat 32 n) nn →
    ∃ t, exec (.block 10 true) s = .next t ∧
      (∀ p : Nat, ∀ hp : p < 64, t.ks[p] = keystream k c nn (64 * n + p)) ∧
      t.state = initState k (c + BitVec.ofNat 32 (n + 1)) nn

/-! ## CIPHER (42_keystream_commands.md R152 to R163) -/

/-- R153: CIPHER raises the first failing check, in order, none has any effect but the completion, and when none fails it raises
nothing. -/
def Obligations.CipherChecksInOrder : Prop :=
  ∀ s : State, s.phase = .check →
    (s.keyld ≠ 0xFF → exec .cipher s = .next { s with busy := false, done := true, err := true, errcode := 1 }) ∧
    (s.keyld = 0xFF → s.nonceld ≠ 0b111 →
      exec .cipher s = .next { s with busy := false, done := true, err := true, errcode := 2 }) ∧
    (s.keyld = 0xFF → s.nonceld = 0b111 → s.dcap.toNat < s.len.toNat →
      exec .cipher s = .next { s with busy := false, done := true, err := true, errcode := 3 }) ∧
    (s.keyld = 0xFF → s.nonceld = 0b111 → s.len.toNat ≤ s.dcap.toNat →
      (2 ^ 32 < s.src.toNat + s.len.toNat ∨ 2 ^ 32 < s.dst.toNat + s.len.toNat) →
      exec .cipher s = .next { s with busy := false, done := true, err := true, errcode := 6 }) ∧
    (s.keyld = 0xFF → s.nonceld = 0b111 → s.len.toNat ≤ s.dcap.toNat → s.src.toNat + s.len.toNat ≤ 2 ^ 32 →
      s.dst.toNat + s.len.toNat ≤ 2 ^ 32 → 2 ^ 32 < s.counter.toNat + (s.len.toNat + 63) / 64 →
      exec .cipher s = .next { s with busy := false, done := true, err := true, errcode := 4 }) ∧
    (s.keyld = 0xFF → s.nonceld = 0b111 → s.len.toNat ≤ s.dcap.toNat → s.src.toNat + s.len.toNat ≤ 2 ^ 32 →
      s.dst.toNat + s.len.toNat ≤ 2 ^ 32 → s.counter.toNat + (s.len.toNat + 63) / 64 ≤ 2 ^ 32 →
      ∃ t, exec .cipher s = .next t ∧ t.err = s.err ∧ t.errcode = s.errcode)

/-- R155, R161: when every check passes and LEN is not 0, CIPHER's first step builds STATE, sets SVALID, clears CEXH and CI, and goes on
to GEN. -/
def Obligations.CipherInitialises : Prop :=
  ∀ s : State, s.phase = .check → s.keyld = 0xFF → s.nonceld = 0b111 → s.len.toNat ≤ s.dcap.toNat →
    s.src.toNat + s.len.toNat ≤ 2 ^ 32 → s.dst.toNat + s.len.toNat ≤ 2 ^ 32 →
    s.counter.toNat + (s.len.toNat + 63) / 64 ≤ 2 ^ 32 → s.len ≠ 0 →
    exec .cipher s = .next { s with
      state := initState s.key s.counter s.nonce, svalid := true, cexh := false, ci := 0, phase := .gen }

/-- R163: with LEN = 0 CIPHER checks the key and the nonce, then builds STATE and completes; memory and KS are unchanged and
STATE[12] = COUNTER. -/
def Obligations.CipherOfNothing : Prop :=
  ∀ s : State, s.phase = .check → s.len = 0 →
    (s.keyld ≠ 0xFF → exec .cipher s = .next { s with busy := false, done := true, err := true, errcode := 1 }) ∧
    (s.keyld = 0xFF → s.nonceld ≠ 0b111 →
      exec .cipher s = .next { s with busy := false, done := true, err := true, errcode := 2 }) ∧
    (s.keyld = 0xFF → s.nonceld = 0b111 →
      exec .cipher s = .next { s with
        state := initState s.key s.counter s.nonce, svalid := true, cexh := false, ci := 0, busy := false, done := true } ∧
      (initState s.key s.counter s.nonce)[12] = s.counter)

/-- R161, R151: CIPHER's GEN step writes KS with the 20-round block of STATE and increments the counter; WORK keeps what
notes/assumptions/11.md says. -/
def Obligations.CipherGeneratesBlock : Prop :=
  ∀ s : State, s.phase = .gen →
    ∃ t, exec .cipher s = .next t ∧ t.phase = .rd ∧ t.ks = block s.state 10 ∧ t.state[12] = s.state[12] + 1 ∧
      (∀ i : Nat, ∀ hi : i < 16, i ≠ 12 → t.state[i] = s.state[i]) ∧
      (t.cexh = true ↔ s.cexh = true ∨ s.state[12] = 0xFFFFFFFF) ∧
      t = { s with phase := .rd, ks := t.ks, work := rounds 10 s.state, state := t.state, cexh := t.cexh }

/-- R161, R62: CIPHER's RD step, answered, puts the byte at SRC + CI into IBYTE and changes nothing else (no read side effects:
notes/assumptions/17.md). -/
def Obligations.CipherReadsByte : Prop :=
  ∀ s : State, s.phase = .rd → Answered s .read (s.src.toNat + s.ci) →
    exec .cipher s = .next { s with ibyte := s.mem.read (s.src.toNat + s.ci), phase := .wr }

/-- R161, R62, R71: CIPHER's WR step, answered, writes IBYTE ^ KS[CI mod 64] at DST + CI (a draw, whatever the draws are, once the host
has raced: notes/assumptions/6.md) and no other byte, advances CI, and completes or goes on to GEN or RD. -/
def Obligations.CipherWritesByte : Prop :=
  ∀ s : State, s.phase = .wr → s.mem.wf → Answered s .write (s.dst.toNat + s.ci) →
    ∃ t, exec .cipher s = .next t ∧ t.ci = s.ci + 1 ∧
      (s.raced = false → t.draws = s.draws ∧
        t.mem.read (s.dst.toNat + s.ci) = s.ibyte ^^^ s.ks[s.ci % 64]'(Nat.mod_lt _ (by decide))) ∧
      (s.raced = true → t.draws = s.draws + 1 ∧ t.mem.read (s.dst.toNat + s.ci) = Config.draw8 s.draws) ∧
      (∀ a, a ≠ s.dst.toNat + s.ci → t.mem.read a = s.mem.read a) ∧
      (s.ci + 1 = s.len.toNat → t.phase = .check ∧ t.busy = false ∧ t.done = true) ∧
      (s.ci + 1 ≠ s.len.toNat → (s.ci + 1) % 64 = 0 → t.phase = .gen ∧ t.busy = s.busy ∧ t.done = s.done) ∧
      (s.ci + 1 ≠ s.len.toNat → (s.ci + 1) % 64 ≠ 0 → t.phase = .rd ∧ t.busy = s.busy ∧ t.done = s.done) ∧
      t = { s with mem := t.mem, ci := t.ci, draws := t.draws, phase := t.phase, busy := t.busy, done := t.done }

/-- R162, R62: a bus error at RD or WR ends CIPHER in that step with BusError; memory, KS, STATE and everything but the completion
are as they were. -/
def Obligations.CipherBusErrorEnds : Prop :=
  ∀ s : State,
    (s.phase = .rd → AnsweredByError s .read (s.src.toNat + s.ci) → exec .cipher s = .next { s with
      busy := false, done := true, err := true, errcode := 7, phase := .check }) ∧
    (s.phase = .wr → AnsweredByError s .write (s.dst.toNat + s.ci) → exec .cipher s = .next { s with
      busy := false, done := true, err := true, errcode := 7, phase := .check })

/-- R62, R251: while memory does not answer, the engine's step does not happen: BUSY stays 1 and only the schedule moves on. That silence
comes before MEM_OK is notes/assumptions/4.md. -/
def Obligations.UnansweredAccessStalls : Prop :=
  ∀ (s : State) (rest : List Move), EngineMoves s rest → s.busy = true →
    (s.phase = .rd ∧ Unanswered s .read (s.src.toNat + s.ci)) ∨
      (s.phase = .wr ∧ Unanswered s .write (s.dst.toNat + s.ci)) →
    step s = .next { s with schedule := rest }

/-- R158, R159, R161, R68: a CIPHER whose checks pass, whose accesses memory answers, and which is left to run, completes without an
error after exactly 1 + nblk + 2L engine steps: after every smaller number of steps BUSY is still 1. STATE is the initial State with the
counter advanced by nblk, CEXH tells the wrap, and only the output buffer changes. Unless the output buffer starts inside the input
buffer each output byte is the input byte XOR the keystream byte of its position; with SRC < DST < SRC + LEN that holds of the first
DST - SRC bytes, and each later byte is the output byte DST - SRC places before it XOR the keystream byte of its own position.
That memory has no read side effects is notes/assumptions/17.md. -/
def Obligations.CipherRunCompletes : Prop :=
  ∀ s : State, s.schedule = [] → s.busy = true → s.phase = .check → s.curcmd = 0x00000003 → s.raced = false →
    s.err = false → s.errcode = 0 → s.mem.wf → cipherError s = none → AllAnswered s →
    (∀ k, k < 1 + (s.len.toNat + 63) / 64 + 2 * s.len.toNat →
      ∃ u, Host.Core.run Sys2Proof.core k s = .next u ∧ u.busy = true) ∧
    ∃ t, Host.Core.run Sys2Proof.core (1 + (s.len.toNat + 63) / 64 + 2 * s.len.toNat) s = .next t ∧
      t.busy = false ∧ t.done = true ∧ t.err = false ∧ t.errcode = 0 ∧ t.svalid = true ∧
      t.state = initState s.key (s.counter + BitVec.ofNat 32 ((s.len.toNat + 63) / 64)) s.nonce ∧
      (t.cexh = true ↔ s.counter.toNat + (s.len.toNat + 63) / 64 = 2 ^ 32) ∧
      (∀ a, inDest s a = false → t.mem.read a = s.mem.read a) ∧
      (s.dst.toNat ≤ s.src.toNat ∨ s.src.toNat + s.len.toNat ≤ s.dst.toNat → ∀ i, i < s.len.toNat →
        t.mem.read (s.dst.toNat + i) = s.mem.read (s.src.toNat + i) ^^^ keystream s.key s.counter s.nonce i) ∧
      (s.src.toNat < s.dst.toNat ∧ s.dst.toNat < s.src.toNat + s.len.toNat → ∀ i, i < s.len.toNat →
        t.mem.read (s.dst.toNat + i) =
          (if i < s.dst.toNat - s.src.toNat then s.mem.read (s.src.toNat + i)
            else t.mem.read (s.dst.toNat + (i - (s.dst.toNat - s.src.toNat)))) ^^^ keystream s.key s.counter s.nonce i) ∧
      (s.len = 0 → t.ks = s.ks) ∧
      (s.len ≠ 0 → t.ks = block (initState s.key (s.counter + BitVec.ofNat 32 ((s.len.toNat + 63) / 64 - 1)) s.nonce) 10) ∧
      t.counter = s.counter ∧ t.key = s.key ∧ t.nonce = s.nonce ∧ t.keyld = s.keyld ∧ t.nonceld = s.nonceld ∧
      t.src = s.src ∧ t.dst = s.dst ∧ t.len = s.len ∧ t.dcap = s.dcap

/-! ## The host's race with a CIPHER (20_memory.md R71); every value of the draws is covered -/

/-- R71 (notes/assumptions/6.md): a host write into a buffer of a running CIPHER races: every byte of the output buffer, whether written
already or not, is a draw, no other byte but the one the host writes changes, and the command goes on. -/
def Obligations.HostWriteRaces : Prop :=
  ∀ (s : State) (a : BitVec 32) (v : Byte) (rest : List Move), s.schedule = .hostStore a v :: rest →
    s.busy = true → s.curcmd = 0x00000003 → s.mem.wf →
    inSource s a.toNat = true ∨ inDest s a.toNat = true →
    ∃ t, step s = .next t ∧ t.raced = true ∧ t.draws = s.draws + s.len.toNat ∧
      (∀ i, i < s.len.toNat → s.dst.toNat + i < 2 ^ 32 →
        t.mem.read (s.dst.toNat + i) = Config.draw8 (s.draws + i)) ∧
      (∀ b, inDest s b = false →
        t.mem.read b = if b = a.toNat then v else s.mem.read b) ∧
      t = { s with schedule := rest, resp := .ack, raced := true, draws := t.draws, mem := t.mem }

/-- R71 (notes/assumptions/6.md): a host read of a byte of the output buffer of a running CIPHER gets a draw, and races: every byte of
the output buffer, whether written already or not, is a draw, no other byte changes, and the command goes on. -/
def Obligations.HostReadOfOutputRaces : Prop :=
  ∀ (s : State) (a : BitVec 32) (rest : List Move), s.schedule = .hostLoad a :: rest →
    s.busy = true → s.curcmd = 0x00000003 → s.mem.wf → inDest s a.toNat = true →
    ∃ t, step s = .next t ∧ t.raced = true ∧ t.resp = .byte (Config.draw8 s.draws) ∧
      t.draws = s.draws + 1 + s.len.toNat ∧
      (∀ i, i < s.len.toNat → s.dst.toNat + i < 2 ^ 32 →
        t.mem.read (s.dst.toNat + i) = Config.draw8 (s.draws + 1 + i)) ∧
      (∀ b, inDest s b = false → t.mem.read b = s.mem.read b) ∧
      t = { s with schedule := rest, resp := t.resp, raced := true, draws := t.draws, mem := t.mem }

/-- R69, R71: a host write outside both buffers of a running CIPHER sets its byte and no other, and a host read outside its output
buffer, of an input byte too, returns its byte and changes nothing. That both always complete is notes/assumptions/10.md, and that
memory has no read side effects notes/assumptions/17.md. -/
def Obligations.HostMemoryAccess : Prop :=
  (∀ (s : State) (a : BitVec 32) (v : Byte) (rest : List Move), s.schedule = .hostStore a v :: rest → s.mem.wf →
    s.busy = false ∨ s.curcmd ≠ 0x00000003 ∨ (inSource s a.toNat = false ∧ inDest s a.toNat = false) →
    ∃ t, step s = .next t ∧ (∀ b, t.mem.read b = if b = a.toNat then v else s.mem.read b) ∧
      t = { s with schedule := rest, resp := .ack, mem := t.mem }) ∧
  ∀ (s : State) (a : BitVec 32) (rest : List Move), s.schedule = .hostLoad a :: rest →
    s.busy = false ∨ s.curcmd ≠ 0x00000003 ∨ inDest s a.toNat = false →
    step s = .next { s with schedule := rest, resp := .byte (s.mem.read a.toNat) }

/-! ## Frames and whole-machine rules -/

/-- R90: no command writes CTRL, BUSYWR, COUNTER, SRC, DST, LEN, DCAP or CURCMD, nor the platform, the schedule or the response; and
only ZEROIZE writes KEY, NONCE and LOADED. -/
def Obligations.CommandsLeaveRegisters : Prop :=
  ∀ (i : Instr) (s t : State), exec i s = .next t →
    t.ie = s.ie ∧ t.busywr = s.busywr ∧ t.counter = s.counter ∧ t.src = s.src ∧ t.dst = s.dst ∧ t.len = s.len ∧
    t.dcap = s.dcap ∧ t.curcmd = s.curcmd ∧ t.base = s.base ∧ t.memBad = s.memBad ∧ t.memSilent = s.memSilent ∧
    t.schedule = s.schedule ∧ t.resp = s.resp ∧ t.raced = s.raced ∧
    (i ≠ .zeroize → t.key = s.key ∧ t.nonce = s.nonce ∧ t.keyld = s.keyld ∧ t.nonceld = s.nonceld)

/-- R61: NOP, INIT, BLOCK and ZEROIZE leave every byte of memory and draw nothing; CIPHER stores at most the byte at DST + CI, and only
in its WR step (no read side effects: notes/assumptions/17.md). -/
def Obligations.CommandsLeaveMemory : Prop :=
  ∀ (i : Instr) (s t : State), exec i s = .next t →
    (i ≠ .cipher ∨ s.phase ≠ .wr → t.mem = s.mem ∧ t.draws = s.draws) ∧
    ∀ a, a ≠ destAddr s → t.mem.read a = s.mem.read a

/-- R61: from a state that meets the invariant of the engine, a step of the engine changes no byte outside [DST, DST + LEN) (no read
side effects: notes/assumptions/17.md). -/
def Obligations.EngineWritesOnlyOutputBuffer : Prop :=
  ∀ (s t : State) (rest : List Move), EngineInv s → EngineMoves s rest → step s = .next t →
    ∀ a, ¬(s.dst.toNat ≤ a ∧ a < s.dst.toNat + s.len.toNat) → t.mem.read a = s.mem.read a

/-- R41: a step leaves STATE as it is, adds 1 to word 12 alone (a BLOCK with INC = 1, or a CIPHER chunk), or writes STATE whole (INIT,
CIPHER's first step, ZEROIZE, reset). -/
def Obligations.StateChangesOnlyInCounter : Prop :=
  ∀ s t : State, step s = .next t →
    t.state = s.state ∨
    ((∃ rest, EngineMoves s rest) ∧ s.busy = true ∧ t.state = s.state.set 12 (s.state[12] + 1) ∧
      (s.phase = .gen ∨ s.phase = .check ∧ ∃ dr, decode s.curcmd = .ok (.block dr true))) ∨
    ((∃ rest, EngineMoves s rest) ∧ s.busy = true ∧ t.state = initState s.key s.counter s.nonce ∧ s.phase = .check ∧
      (decode s.curcmd = .ok .init ∨ decode s.curcmd = .ok .cipher)) ∨
    ((∃ rest, EngineMoves s rest) ∧ s.busy = true ∧ t.state = Vector.replicate 16 0 ∧ s.phase = .check ∧
      decode s.curcmd = .ok .zeroize) ∨
    (t.state = Vector.replicate 16 0 ∧ s.schedule.head? = some .reset)

/-- R29: only a reset or ZEROIZE clears a bit of LOADED. -/
def Obligations.LoadedBitsStay : Prop :=
  ∀ s t : State, step s = .next t → s.schedule.head? ≠ some .reset →
    ¬((∃ rest, EngineMoves s rest) ∧ s.busy = true ∧ s.phase = .check ∧ decode s.curcmd = .ok .zeroize) →
    (∀ i, s.keyld.getLsbD i = true → t.keyld.getLsbD i = true) ∧
    ∀ i, s.nonceld.getLsbD i = true → t.nonceld.getLsbD i = true

/-- R202: the codes each command, and an illegal word, can complete with. -/
def Obligations.CodesByCommand : Prop :=
  (∀ (i : Instr) (s t : State), s.errcode = 0 → exec i s = .next t → t.errcode ∈ possibleCodes i) ∧
  ∀ (s : State) (rest : List Move), EngineMoves s rest → s.busy = true → s.phase = .check →
    (∀ i, decode s.curcmd ≠ .ok i) → ∃ t, step s = .next t ∧ t.errcode = 8

/-- R206: an error found in a command's first step, IllegalCommand included, changes only BUSY, DONE, ERR and ERRCODE (PHASE is CHECK
then already); the one later error is BusError, whose step changes no more than that and PHASE. -/
def Obligations.ErrorsLeaveState : Prop :=
  (∀ (i : Instr) (s t : State), s.err = false → exec i s = .next t → t.err = true →
    t = { s with busy := false, done := true, err := true, errcode := t.errcode, phase := .check } ∧
    (t.errcode = 7 ↔ i = .cipher ∧ s.phase ≠ .check)) ∧
  ∀ (s : State) (rest : List Move) (e : DecodeError), EngineMoves s rest → s.busy = true → s.phase = .check →
    decode s.curcmd = .error e →
    step s = .next { s with schedule := rest, busy := false, done := true, err := true, errcode := 8 }

/-- R250: unless a reset intervenes, a step taken while BUSY = 1 leaves BUSY = 1 or DONE = 1. -/
def Obligations.BusyEndsInDone : Prop :=
  ∀ s t : State, s.busy = true → s.schedule.head? ≠ some .reset → step s = .next t → t.busy = true ∨ t.done = true

/-- R32, D7: no register read that is not a draw tells two keys apart, and no read moves the key elsewhere: after any read two states
that differ only in KEY differ in KEY and the response alone, and the responses are the same unless they are draws. What a draw
returns is left free (R31, R36, R246): nothing is said of how the draws of the two states relate. -/
def Obligations.KeyIsNotReadable : Prop :=
  ∀ (s : State) (k : Vector Word 8) (addr bits : Nat) (rest : List Move), s.schedule = .busRead addr bits :: rest →
    ∃ t r, step s = .next t ∧ step { s with key := k } = .next { t with key := k, resp := r } ∧
      (¬ReadIsDraw s addr bits → r = t.resp)

/-! ## Invariants every step keeps -/

/-- R26: ERR = 0 implies ERRCODE = 0, and BUSY = 1 implies DONE = 0 and ERR = 0, after every step that starts so. -/
def Obligations.StatusInvariantKept : Prop :=
  ∀ s t : State, StatusInv s → step s = .next t → StatusInv t

/-- Every step keeps memory (R60) in its canonical form, in every state. The canonical form is the model's own, so that equal memories
are equal lists. -/
def Obligations.MemoryStaysCanonical : Prop :=
  ∀ s t : State, s.mem.wf → step s = .next t → t.mem.wf

/-- R40 to R43, R153 to R161, R205: every step keeps the invariant of the engine. -/
def Obligations.EngineInvariantKept : Prop :=
  ∀ s t : State, EngineInv s → step s = .next t → EngineInv t

/-- R156, R112: every step keeps what an unraced CIPHER has done: the output bytes so far are input XOR keystream (no read side effects:
notes/assumptions/17.md). -/
def Obligations.CipherOutputKept : Prop :=
  ∀ s t : State, EngineInv s → CipherOutput s → step s = .next t → CipherOutput t

/-- R200, R154: from a state that meets the invariant of the engine, every step answers a next state. -/
def Obligations.EngineNeverStops : Prop :=
  ∀ s : State, EngineInv s → StepAnswers s

/-- R49, R242: the reset state meets the invariants. That its memory lists nothing is notes/assumptions/1.md. -/
def Obligations.ResetMeetsInvariants : Prop :=
  EngineInv State.reset ∧ StatusInv State.reset ∧ CipherOutput State.reset

/-! ## Reset (10_state.md R49, 70_reset_and_hazards.md) -/

/-- R49: every piece of state at its reset value. -/
def Obligations.ResetValues : Prop :=
  let s := State.reset
  s.ie = false ∧ s.busy = false ∧ s.done = false ∧ s.err = false ∧ s.busywr = false ∧ s.errcode = 0 ∧ s.svalid = false ∧
  s.cexh = false ∧ loadedWord s = 0 ∧ s.counter = 0 ∧ s.key = Vector.replicate 8 0 ∧ s.nonce = Vector.replicate 3 0 ∧
  s.src = 0 ∧ s.dst = 0 ∧ s.len = 0 ∧ s.dcap = 0 ∧ s.state = Vector.replicate 16 0 ∧ s.work = Vector.replicate 16 0 ∧
  s.ks = Vector.replicate 64 0 ∧ s.curcmd = 0 ∧ s.phase = .check ∧ s.ci = 0 ∧ s.ibyte = 0 ∧ irq s = false ∧
  regValue s .id = 0x30324343

/-- R240, R241: a reset puts every piece of the engine's state at its reset value in one step, abandons a command without DONE, lowers
irq, and leaves memory as it was; the model's choice (notes/assumptions/14.md) leaves the platform, the schedule, the response and the
count of draws. -/
def Obligations.ResetStep : Prop :=
  ∀ (s : State) (rest : List Move), s.schedule = .reset :: rest →
    ∃ t, step s = .next t ∧ irq t = false ∧
      t = { State.reset with
        mem := s.mem, base := s.base, memBad := s.memBad, memSilent := s.memSilent
        schedule := rest, resp := s.resp, draws := s.draws }

/-! ## The register window (10_state.md R20 to R37) -/

/-- R21: an access to the window that is not an aligned 32-bit one gets a bus error response and changes nothing else. That an access
is to the window when its first byte lies there, however far it runs, and that its alignment is that of the bus address, whatever BASE
is, are the model's choice (notes/assumptions/9.md). -/
def Obligations.UndefinedAccessChangesNothing : Prop :=
  ∀ (s : State) (addr bits : Nat) (v : Word) (rest : List Move), s.base ≤ addr → addr < s.base + 0x1000 →
    ¬(bits = 32 ∧ addr % 4 = 0) →
    (s.schedule = .busRead addr bits :: rest ∨ s.schedule = .busWrite addr bits v :: rest) →
    step s = .next { s with schedule := rest, resp := .busError }

/-- R22: a write to a write-protected register while BUSY = 1 is dropped and sets BUSYWR; a write to CTRL or STATUS takes effect
whatever BUSY is; a write to a read-only register or a reserved offset is ignored; any other write has the write effect of its
register, whose rules the other statements of this section are about. -/
def Obligations.WritesWhileBusy : Prop :=
  ∀ (s : State) (o : Nat) (v : Word) (rest : List Move), HostWrites s o v rest →
    (ProtectedOffset o → s.busy = true →
      step s = .next { s with schedule := rest, resp := .ack, busywr := true }) ∧
    (o = 0x004 → step s = .next { s with schedule := rest, resp := .ack, ie := v.getLsbD 0 }) ∧
    (o = 0x008 → step s = .next { s with
      schedule := rest, resp := .ack
      done := if v.getLsbD 1 then false else s.done
      err := if v.getLsbD 2 then false else s.err
      errcode := if v.getLsbD 2 then 0 else s.errcode
      busywr := if v.getLsbD 3 then false else s.busywr }) ∧
    (UnwritableOffset o → step s = .next { s with schedule := rest, resp := .ack }) ∧
    (s.busy = false ∨ ¬ProtectedOffset o →
      step s = .next { regEffect { s with schedule := rest } v (regAt o) with resp := .ack })

/-- R27: a write of STATUS clears DONE by bit 1, ERR and ERRCODE by bit 2, BUSYWR by bit 3, and has no other effect, whatever BUSY
is; while BUSY = 1, in a state that meets R26's invariants, DONE and ERR were 0 anyway. -/
def Obligations.StatusWriteClears : Prop :=
  ∀ (s : State) (v : Word) (rest : List Move), HostWrites s 0x008 v rest →
    step s = .next { s with
      schedule := rest, resp := .ack
      done := if v.getLsbD 1 then false else s.done
      err := if v.getLsbD 2 then false else s.err
      errcode := if v.getLsbD 2 then 0 else s.errcode
      busywr := if v.getLsbD 3 then false else s.busywr } ∧
    (StatusInv s → s.busy = true → step s = .next { s with
      schedule := rest, resp := .ack
      busywr := if v.getLsbD 3 then false else s.busywr })

/-- R204: a write of any word to CMD while BUSY = 0 is accepted, and while BUSY = 1 is dropped. Clearing `raced`, the model's own field,
is notes/assumptions/6.md. -/
def Obligations.CmdWriteAccepts : Prop :=
  ∀ (s : State) (w : Word) (rest : List Move), HostWrites s 0x00C w rest →
    (s.busy = false → step s = .next { s with
      schedule := rest, resp := .ack
      curcmd := w, done := false, err := false, errcode := 0, phase := .check, busy := true, raced := false }) ∧
    (s.busy = true → step s = .next { s with schedule := rest, resp := .ack, busywr := true })

/-- R32, R47: a write of KEY i while idle sets KEY[i] and its KEYLD bit and nothing else, STATE included. -/
def Obligations.KeyWriteLoads : Prop :=
  ∀ (s : State) (i : Nat) (hi : i < 8) (w : Word) (rest : List Move), HostWrites s (0x020 + 4 * i) w rest → s.busy = false →
    ∃ t, step s = .next t ∧ t.key[i] = w ∧ (∀ j : Nat, ∀ hj : j < 8, j ≠ i → t.key[j] = s.key[j]) ∧
      (∀ j : Nat, j < 8 → (t.keyld.getLsbD j = true ↔ j = i ∨ s.keyld.getLsbD j = true)) ∧
      t = { s with schedule := rest, resp := .ack, key := t.key, keyld := t.keyld }

/-- R33, R47: a write of NONCE i while idle sets NONCE[i] and its NONCELD bit and nothing else, STATE included. -/
def Obligations.NonceWriteLoads : Prop :=
  ∀ (s : State) (i : Nat) (hi : i < 3) (w : Word) (rest : List Move), HostWrites s (0x040 + 4 * i) w rest → s.busy = false →
    ∃ t, step s = .next t ∧ t.nonce[i] = w ∧ (∀ j : Nat, ∀ hj : j < 3, j ≠ i → t.nonce[j] = s.nonce[j]) ∧
      (∀ j : Nat, j < 3 → (t.nonceld.getLsbD j = true ↔ j = i ∨ s.nonceld.getLsbD j = true)) ∧
      t = { s with schedule := rest, resp := .ack, nonce := t.nonce, nonceld := t.nonceld }

/-- R30, R34, R35: a write of COUNTER, SRC, DST, LEN or DCAP while idle sets all 32 bits of it and nothing else. -/
def Obligations.DataRegisterWrites : Prop :=
  ∀ (s : State) (o : Nat) (v : Word) (rest : List Move), HostWrites s o v rest → s.busy = false →
    (o = 0x014 → step s = .next { s with schedule := rest, resp := .ack, counter := v }) ∧
    (o = 0x050 → step s = .next { s with schedule := rest, resp := .ack, src := v }) ∧
    (o = 0x054 → step s = .next { s with schedule := rest, resp := .ack, dst := v }) ∧
    (o = 0x058 → step s = .next { s with schedule := rest, resp := .ack, len := v }) ∧
    (o = 0x05C → step s = .next { s with schedule := rest, resp := .ack, dcap := v })

/-- R24 to R37, R246: what a read of each register but KS and SCTR returns, exactly, whatever BUSY is, and that it changes nothing
else. -/
def Obligations.RegisterReads : Prop :=
  ∀ (s : State) (o : Nat) (rest : List Move), HostReads s o rest →
    (o = 0x000 → step s = .next { s with schedule := rest, resp := .data 0x30324343 }) ∧
    (o = 0x004 → step s = .next { s with schedule := rest, resp := .data (BitVec.ofNat 32 s.ie.toNat) }) ∧
    (o = 0x008 → step s = .next { s with
      schedule := rest
      resp := .data (BitVec.ofNat 32 (s.busy.toNat + 2 * s.done.toNat + 4 * s.err.toNat + 8 * s.busywr.toNat
        + 16 * s.svalid.toNat + 32 * s.cexh.toNat + 256 * s.errcode.toNat)) }) ∧
    (o = 0x010 → step s = .next { s with
      schedule := rest, resp := .data (BitVec.ofNat 32 (s.keyld.toNat + 256 * s.nonceld.toNat)) }) ∧
    (o = 0x014 → step s = .next { s with schedule := rest, resp := .data s.counter }) ∧
    (o = 0x040 → step s = .next { s with schedule := rest, resp := .data s.nonce[0] }) ∧
    (o = 0x044 → step s = .next { s with schedule := rest, resp := .data s.nonce[1] }) ∧
    (o = 0x048 → step s = .next { s with schedule := rest, resp := .data s.nonce[2] }) ∧
    (o = 0x050 → step s = .next { s with schedule := rest, resp := .data s.src }) ∧
    (o = 0x054 → step s = .next { s with schedule := rest, resp := .data s.dst }) ∧
    (o = 0x058 → step s = .next { s with schedule := rest, resp := .data s.len }) ∧
    (o = 0x05C → step s = .next { s with schedule := rest, resp := .data s.dcap }) ∧
    (o = 0x00C ∨ (0x020 ≤ o ∧ o < 0x040) ∨ ReservedOffset o →
      step s = .next { s with schedule := rest, resp := .data 0 })

/-- R31, R36: SCTR and KS j read exactly while BUSY = 0, byte b of KS j being KS[4j + b], and read a draw while BUSY = 1, whatever the
draws are; a write of them is ignored. -/
def Obligations.KeystreamReads : Prop :=
  (∀ (s : State) (o : Nat) (rest : List Move), HostReads s o rest → o = 0x018 ∨ (0x100 ≤ o ∧ o < 0x140) →
    (s.busy = true → step s = .next { s with
      schedule := rest, resp := .data (Config.draw32 s.draws), draws := s.draws + 1 }) ∧
    (s.busy = false → ∃ w, step s = .next { s with schedule := rest, resp := .data w } ∧
      (o = 0x018 → w = s.state[12]) ∧
      ∀ j b : Nat, ∀ hj : j < 16, ∀ hb : b < 4, o = 0x100 + 4 * j →
        ((w >>> (8 * b)).setWidth 8 : Byte) = s.ks[4 * j + b])) ∧
  ∀ (s : State) (o : Nat) (v : Word) (rest : List Move), HostWrites s o v rest → o = 0x018 ∨ (0x100 ≤ o ∧ o < 0x140) →
    step s = .next { s with schedule := rest, resp := .ack }

/-- R209: the interrupt is CTRL.IE & STATUS.DONE; it is raised by the completion of a command, with or without an error, exactly when
CTRL.IE = 1, follows a write of CTRL at once, and is lowered by clearing DONE or accepting a command. -/
def Obligations.InterruptLevel : Prop :=
  (∀ s : State, irq s = (s.ie && s.done)) ∧
  (∀ (i : Instr) (s t : State), s.busy = true → exec i s = .next t → t.busy = false → irq t = s.ie) ∧
  ∀ (s : State) (o : Nat) (v : Word) (rest : List Move), HostWrites s o v rest →
    ∃ t, step s = .next t ∧
      (o = 0x004 → irq t = (v.getLsbD 0 && s.done)) ∧
      (o = 0x008 → irq t = (s.ie && s.done && !v.getLsbD 1)) ∧
      (o = 0x00C → s.busy = false → irq t = false)

/-! ## The datapath (40_datapath.md) -/

/-- R100, R101: the Endian Codec's two functions, least-significant byte first, are inverse to each other. -/
def Obligations.EndianCodecInverse : Prop :=
  (∀ b0 b1 b2 b3 : Byte,
    (leWord b0 b1 b2 b3).toNat = b0.toNat + 2 ^ 8 * b1.toNat + 2 ^ 16 * b2.toNat + 2 ^ 24 * b3.toNat) ∧
  (∀ w : Word, leWord (leBytes w)[0] (leBytes w)[1] (leBytes w)[2] (leBytes w)[3] = w) ∧
  (∀ b0 b1 b2 b3 : Byte, leBytes (leWord b0 b1 b2 b3) = #v[b0, b1, b2, b3]) ∧
  leWord 0x00 0x01 0x02 0x03 = 0x03020100

/-- R102: rotl32 is the circular left shift for every n from 0 to 31: bit j goes to bit (j + n) mod 32; it is the OR of the rule's two
shifts; and the rule's examples. -/
def Obligations.RotationIsCircular : Prop :=
  (∀ (x : Word) (n j : Nat), n ≤ 31 → j < 32 → (rotl32 x n).getLsbD ((j + n) % 32) = x.getLsbD j) ∧
  (∀ (x : Word) (n : Nat), n ≤ 31 → rotl32 x n = (x <<< n) ||| (x >>> ((-(n : Int)) % 32).toNat)) ∧
  (∀ x : Word, rotl32 x 0 = x) ∧
  rotl32 0x80000001 1 = 0x00000003 ∧ rotl32 0x01234567 8 = 0x23456701

/-- R104: the Quarter Round replaces four words, each step reading what the previous ones wrote, leaves the other twelve, and takes
zeros to zeros; and the rule's example. The clause about zeros holds for repeated indices too, where what `qr` computes is the model's
choice (notes/assumptions/20.md). -/
def Obligations.QuarterRoundWords : Prop :=
  (∀ (s : Vector Word 16) (a b c d : Fin 16), a ≠ b → a ≠ c → a ≠ d → b ≠ c → b ≠ d → c ≠ d →
    (∀ a1 d1 c1 b1 a2 d2 c2 b2 : Word,
      a1 = s[a] + s[b] → d1 = rotl32 (s[d] ^^^ a1) 16 → c1 = s[c] + d1 → b1 = rotl32 (s[b] ^^^ c1) 12 →
      a2 = a1 + b1 → d2 = rotl32 (d1 ^^^ a2) 8 → c2 = c1 + d2 → b2 = rotl32 (b1 ^^^ c2) 7 →
      (qr s a b c d)[a] = a2 ∧ (qr s a b c d)[b] = b2 ∧ (qr s a b c d)[c] = c2 ∧ (qr s a b c d)[d] = d2) ∧
    ∀ i : Fin 16, i ≠ a → i ≠ b → i ≠ c → i ≠ d → (qr s a b c d)[i] = s[i]) ∧
  (∀ a b c d : Fin 16, qr (Vector.replicate 16 0) a b c d = Vector.replicate 16 0) ∧
  qr #v[0x11111111, 0x01020304, 0x9b8d6f43, 0x01234567, 0, 0, 0, 0, 0, 0, 0, 0, 0, 0, 0, 0] 0 1 2 3 =
    #v[0xea2a92f4, 0xcb1cf8ce, 0x4581472e, 0x5881c4bb, 0, 0, 0, 0, 0, 0, 0, 0, 0, 0, 0, 0]

/-- R105: within the column half and within the diagonal half the order of two quarter rounds does not matter; the halves do not swap;
the zero array stays zero. -/
def Obligations.DoubleRoundOrder : Prop :=
  (∀ (s : Vector Word 16) (i j : Fin 4), i ≠ j →
    let column (t : Vector Word 16) (k : Fin 4) : Vector Word 16 :=
      qr t ⟨k.val, by omega⟩ ⟨4 + k.val, by omega⟩ ⟨8 + k.val, by omega⟩ ⟨12 + k.val, by omega⟩
    let diagonal (t : Vector Word 16) (k : Fin 4) : Vector Word 16 :=
      qr t ⟨k.val, by omega⟩ ⟨4 + (k.val + 1) % 4, by omega⟩ ⟨8 + (k.val + 2) % 4, by omega⟩ ⟨12 + (k.val + 3) % 4, by omega⟩
    column (column s i) j = column (column s j) i ∧ diagonal (diagonal s i) j = diagonal (diagonal s j) i ∧
      doubleRound s = diagonal (diagonal (diagonal (diagonal (column (column (column (column s 0) 1) 2) 3) 0) 1) 2) 3) ∧
  (∃ s : Vector Word 16, diagonalRound (columnRound s) ≠ columnRound (diagonalRound s)) ∧
  doubleRound (Vector.replicate 16 0) = Vector.replicate 16 0

/-- R110, R111: the State Initializer's layout, and the words of the call contract's bytes. -/
def Obligations.InitializerLayout : Prop :=
  (∀ (k : Vector Word 8) (c : Word) (n : Vector Word 3),
    (∀ i : Nat, ∀ hi : i < 8, (initState k c n)[4 + i] = k[i]) ∧ (initState k c n)[12] = c ∧
    (∀ i : Nat, ∀ hi : i < 3, (initState k c n)[13 + i] = n[i]) ∧
    (initState k c n)[0] = 0x61707865 ∧ (initState k c n)[1] = 0x3320646e ∧
    (initState k c n)[2] = 0x79622d32 ∧ (initState k c n)[3] = 0x6b206574) ∧
  (∀ (bytes : Vector Byte 32) (i j : Nat), ∀ hi : i < 8, ∀ hj : j < 4,
    (leBytes (keyWords bytes)[i])[j] = bytes[4 * i + j]) ∧
  ∀ (bytes : Vector Byte 12) (i j : Nat), ∀ hi : i < 3, ∀ hj : j < 4,
    (leBytes (nonceWords bytes)[i])[j] = bytes[4 * i + j]
end

