-- ==== Sys2Proof/Laws/Datapath.lean ====
section
/-! SUPPORT. The words and bytes of the datapath functions (40_datapath.md). -/

namespace Sys2Proof.Machine

/-- Byte 4i + j of a serialized block is byte j of word i (R107). -/
theorem serialize_get (o : Vector Word 16) (k : Nat) (h : k < 64) :
    (serialize o)[k] = leByte (o[k / 4]'(by omega)) (k % 4) := by
  simp [serialize]

/-- Each output word is the working word plus the input word (R107). -/
theorem feedforward_get (work s : Vector Word 16) (i : Nat) (h : i < 16) :
    (feedforward work s)[i] = work[i] + s[i] := by
  simp [feedforward]

/-- Byte k of a block (R107). -/
theorem block_get (s : Vector Word 16) (dr k : Nat) (h : k < 64) :
    (block s dr)[k] = leByte ((rounds dr s)[k / 4]'(by omega) + s[k / 4]'(by omega)) (k % 4) := by
  rw [block, serialize_get, feedforward_get]

@[simp] theorem rounds_zero (s : Vector Word 16) : rounds 0 s = s := rfl

theorem rounds_succ (n : Nat) (s : Vector Word 16) : rounds (n + 1) s = rounds n (doubleRound s) := rfl

/-- The rounds of two counts run one after the other. -/
theorem rounds_add (m n : Nat) (s : Vector Word 16) : rounds (m + n) s = rounds n (rounds m s) := by
  induction m generalizing s with
  | zero => simp
  | succ m ih => rw [Nat.succ_add, rounds_succ, rounds_succ, ih]

@[simp] theorem initState_0 (k : Vector Word 8) (c : Word) (n : Vector Word 3) : (initState k c n)[0] = Config.const0 := rfl
@[simp] theorem initState_1 (k : Vector Word 8) (c : Word) (n : Vector Word 3) : (initState k c n)[1] = Config.const1 := rfl
@[simp] theorem initState_2 (k : Vector Word 8) (c : Word) (n : Vector Word 3) : (initState k c n)[2] = Config.const2 := rfl
@[simp] theorem initState_3 (k : Vector Word 8) (c : Word) (n : Vector Word 3) : (initState k c n)[3] = Config.const3 := rfl
@[simp] theorem initState_12 (k : Vector Word 8) (c : Word) (n : Vector Word 3) : (initState k c n)[12] = c := rfl

/-- The counter word is the only word that depends on the counter (R110). -/
theorem initState_set_12 (k : Vector Word 8) (c d : Word) (n : Vector Word 3) :
    (initState k c n).set 12 d = initState k d n := rfl

/-- One line of the Quarter Round changes two words only (R104). -/
theorem addXorRotate_other (s : Vector Word 16) (a b d : Fin 16) (n : Nat) (i : Fin 16) (ha : i ≠ a) (hd : i ≠ d) :
    (addXorRotate s a b d n)[i] = s[i] := by
  have ha' : a.val ≠ i.val := fun h => ha (Fin.ext h.symm)
  have hd' : d.val ≠ i.val := fun h => hd (Fin.ext h.symm)
  simp [addXorRotate, Vector.getElem_set, ha', hd']

/-- The first word a line writes: the sum (R104). -/
theorem addXorRotate_sum (s : Vector Word 16) (a b d : Fin 16) (n : Nat) (h : a ≠ d) :
    (addXorRotate s a b d n)[a] = s[a] + s[b] := by
  have h' : d.val ≠ a.val := fun e => h (Fin.ext e.symm)
  simp [addXorRotate, Vector.getElem_set, h']

/-- The second word a line writes: the rotated exclusive-or with the sum (R104). -/
theorem addXorRotate_rot (s : Vector Word 16) (a b d : Fin 16) (n : Nat) (h : a ≠ d) :
    (addXorRotate s a b d n)[d] = rotl32 (s[d] ^^^ (s[a] + s[b])) n := by
  have h' : a.val ≠ d.val := fun e => h (Fin.ext e)
  simp [addXorRotate, h']

end Sys2Proof.Machine
end

