-- ==== Sys2Proof/Laws/Decode.lean ====
section
/-! SUPPORT. The fields of a command word as numbers, and what the decoder answers. -/

namespace Sys2Proof

@[simp] theorem fieldOp_toNat (w : Word) : (fieldOp w).toNat = w.toNat % 16 := by
  simp [fieldOp, BitVec.extractLsb'_toNat]

@[simp] theorem fieldRsv0_toNat (w : Word) : (fieldRsv0 w).toNat = w.toNat / 16 % 16 := by
  simp [fieldRsv0, BitVec.extractLsb'_toNat, Nat.shiftRight_eq_div_pow]

@[simp] theorem fieldInc_toNat (w : Word) : (fieldInc w).toNat = w.toNat / 256 % 2 := by
  simp only [fieldInc, BitVec.getLsbD, Nat.testBit_eq_decide_div_mod_eq]
  rcases Nat.mod_two_eq_zero_or_one (w.toNat / 2 ^ 8) with h | h <;> simp_all

@[simp] theorem fieldRsv1_toNat (w : Word) : (fieldRsv1 w).toNat = w.toNat / 512 % 128 := by
  simp [fieldRsv1, BitVec.extractLsb'_toNat, Nat.shiftRight_eq_div_pow]

@[simp] theorem fieldDr_toNat (w : Word) : (fieldDr w).toNat = w.toNat / 65536 % 32 := by
  simp [fieldDr, BitVec.extractLsb'_toNat, Nat.shiftRight_eq_div_pow]

@[simp] theorem fieldRsv2_toNat (w : Word) : (fieldRsv2 w).toNat = w.toNat / 2097152 % 2048 := by
  simp [fieldRsv2, BitVec.extractLsb'_toNat, Nat.shiftRight_eq_div_pow]

/-- A command word is the sum of its fields (30_encoding.md R81). -/
theorem word_eq_fields (w : Word) :
    w.toNat = (fieldOp w).toNat + 16 * (fieldRsv0 w).toNat + 256 * (fieldInc w).toNat
      + 512 * (fieldRsv1 w).toNat + 65536 * (fieldDr w).toNat + 2097152 * (fieldRsv2 w).toNat := by
  have := w.isLt
  rw [fieldOp_toNat, fieldRsv0_toNat, fieldInc_toNat, fieldRsv1_toNat, fieldDr_toNat, fieldRsv2_toNat]
  omega

/-- What a decoded command says of its word: the reserved fields are 0, OP is the command's, and INC and DR are 0 outside BLOCK. -/
theorem decode_cases {w : Word} {i : Instr} (h : decode w = .ok i) :
    fieldRsv2 w = 0 ∧ fieldRsv1 w = 0 ∧ fieldRsv0 w = 0 ∧
      ((fieldOp w = 2 ∧ i = .block (fieldDr w).toNat (fieldInc w)) ∨
        (fieldDr w = 0 ∧ fieldInc w = false ∧
          ((fieldOp w = 0 ∧ i = .nop) ∨ (fieldOp w = 1 ∧ i = .init) ∨
            (fieldOp w = 3 ∧ i = .cipher) ∨ (fieldOp w = 4 ∧ i = .zeroize)))) := by
  have hplain : ∀ j, decodePlain w j = .ok i → (fieldDr w = 0 ∧ fieldInc w = false) ∧ i = j := by
    intro j hj
    unfold decodePlain at hj
    split at hj
    · exact ⟨‹_›, by injection hj with hj; exact hj.symm⟩
    · cases hj
  unfold decode at h
  split at h
  case isFalse => cases h
  rename_i hr
  refine ⟨hr.1, hr.2.1, hr.2.2, ?_⟩
  split at h
  · obtain ⟨⟨hd, hi⟩, rfl⟩ := hplain _ h; exact .inr ⟨hd, hi, .inl ⟨‹_›, rfl⟩⟩
  split at h
  · obtain ⟨⟨hd, hi⟩, rfl⟩ := hplain _ h; exact .inr ⟨hd, hi, .inr (.inl ⟨‹_›, rfl⟩)⟩
  split at h
  · injection h with h; exact .inl ⟨‹_›, h.symm⟩
  split at h
  · obtain ⟨⟨hd, hi⟩, rfl⟩ := hplain _ h; exact .inr ⟨hd, hi, .inr (.inr (.inl ⟨‹_›, rfl⟩))⟩
  split at h
  · obtain ⟨⟨hd, hi⟩, rfl⟩ := hplain _ h; exact .inr ⟨hd, hi, .inr (.inr (.inr ⟨‹_›, rfl⟩))⟩
  · cases h

/-- A word whose fields are known is known. -/
theorem word_of_fields {w : Word} {op dr : Nat} {inc : Bool} (h2 : fieldRsv2 w = 0) (h1 : fieldRsv1 w = 0)
    (h0 : fieldRsv0 w = 0) (ho : (fieldOp w).toNat = op) (hd : (fieldDr w).toNat = dr) (hi : fieldInc w = inc) :
    w = BitVec.ofNat 32 (op + dr * 2 ^ 16 + inc.toNat * 2 ^ 8) := by
  apply BitVec.eq_of_toNat_eq
  have := w.isLt
  have hw := word_eq_fields w
  rw [h2, h1, h0, ho, hd, hi] at hw
  simp only [BitVec.toNat_ofNat, BitVec.ofNat_eq_ofNat, Nat.zero_mod] at hw ⊢
  rw [Nat.mod_eq_of_lt (by omega)]
  omega

/-- CIPHER has one word (30_encoding.md R89). -/
theorem decode_cipher_word {w : Word} (h : decode w = .ok .cipher) : w = 0x00000003 := by
  obtain ⟨h2, h1, h0, ⟨-, h⟩ | ⟨hd, hi, h⟩⟩ := decode_cases h
  · cases h
  obtain ⟨-, h⟩ | ⟨-, h⟩ | ⟨ho, -⟩ | ⟨-, h⟩ := h
  · cases h
  · cases h
  · exact word_of_fields (op := 3) (dr := 0) h2 h1 h0 (congrArg BitVec.toNat ho) (congrArg BitVec.toNat hd) hi
  · cases h

end Sys2Proof
end

