-- ==== Sys2Proof/Laws/State.lean ====
section
/-! SUPPORT. What each update of the state does to each field: one lemma per field per update, true by `rfl` or by
unfolding the update once, so that no later proof unfolds a record update. -/

namespace Sys2Proof.Machine

/-! `clearStatus`: the W1C write of STATUS (10_state.md R27). -/

@[simp] theorem clearStatus_ie (s : State) (v : Word) : (clearStatus s v).ie = s.ie := rfl
@[simp] theorem clearStatus_busy (s : State) (v : Word) : (clearStatus s v).busy = s.busy := rfl
@[simp] theorem clearStatus_done (s : State) (v : Word) : (clearStatus s v).done = (s.done && !v.getLsbD 1) := rfl
@[simp] theorem clearStatus_err (s : State) (v : Word) : (clearStatus s v).err = (s.err && !v.getLsbD 2) := rfl
@[simp] theorem clearStatus_busywr (s : State) (v : Word) : (clearStatus s v).busywr = (s.busywr && !v.getLsbD 3) := rfl
@[simp] theorem clearStatus_errcode (s : State) (v : Word) : (clearStatus s v).errcode = (if v.getLsbD 2 then 0 else s.errcode) := rfl
@[simp] theorem clearStatus_svalid (s : State) (v : Word) : (clearStatus s v).svalid = s.svalid := rfl
@[simp] theorem clearStatus_cexh (s : State) (v : Word) : (clearStatus s v).cexh = s.cexh := rfl
@[simp] theorem clearStatus_keyld (s : State) (v : Word) : (clearStatus s v).keyld = s.keyld := rfl
@[simp] theorem clearStatus_nonceld (s : State) (v : Word) : (clearStatus s v).nonceld = s.nonceld := rfl
@[simp] theorem clearStatus_counter (s : State) (v : Word) : (clearStatus s v).counter = s.counter := rfl
@[simp] theorem clearStatus_key (s : State) (v : Word) : (clearStatus s v).key = s.key := rfl
@[simp] theorem clearStatus_nonce (s : State) (v : Word) : (clearStatus s v).nonce = s.nonce := rfl
@[simp] theorem clearStatus_src (s : State) (v : Word) : (clearStatus s v).src = s.src := rfl
@[simp] theorem clearStatus_dst (s : State) (v : Word) : (clearStatus s v).dst = s.dst := rfl
@[simp] theorem clearStatus_len (s : State) (v : Word) : (clearStatus s v).len = s.len := rfl
@[simp] theorem clearStatus_dcap (s : State) (v : Word) : (clearStatus s v).dcap = s.dcap := rfl
@[simp] theorem clearStatus_state (s : State) (v : Word) : (clearStatus s v).state = s.state := rfl
@[simp] theorem clearStatus_work (s : State) (v : Word) : (clearStatus s v).work = s.work := rfl
@[simp] theorem clearStatus_ks (s : State) (v : Word) : (clearStatus s v).ks = s.ks := rfl
@[simp] theorem clearStatus_curcmd (s : State) (v : Word) : (clearStatus s v).curcmd = s.curcmd := rfl
@[simp] theorem clearStatus_phase (s : State) (v : Word) : (clearStatus s v).phase = s.phase := rfl
@[simp] theorem clearStatus_ci (s : State) (v : Word) : (clearStatus s v).ci = s.ci := rfl
@[simp] theorem clearStatus_ibyte (s : State) (v : Word) : (clearStatus s v).ibyte = s.ibyte := rfl
@[simp] theorem clearStatus_mem (s : State) (v : Word) : (clearStatus s v).mem = s.mem := rfl
@[simp] theorem clearStatus_base (s : State) (v : Word) : (clearStatus s v).base = s.base := rfl
@[simp] theorem clearStatus_memBad (s : State) (v : Word) : (clearStatus s v).memBad = s.memBad := rfl
@[simp] theorem clearStatus_memSilent (s : State) (v : Word) : (clearStatus s v).memSilent = s.memSilent := rfl
@[simp] theorem clearStatus_schedule (s : State) (v : Word) : (clearStatus s v).schedule = s.schedule := rfl
@[simp] theorem clearStatus_resp (s : State) (v : Word) : (clearStatus s v).resp = s.resp := rfl
@[simp] theorem clearStatus_raced (s : State) (v : Word) : (clearStatus s v).raced = s.raced := rfl
@[simp] theorem clearStatus_draws (s : State) (v : Word) : (clearStatus s v).draws = s.draws := rfl

/-! `counterIncrement`: `counter_increment()` (42_keystream_commands.md R151). -/

@[simp] theorem counterIncrement_ie (s : State) : (counterIncrement s).ie = s.ie := rfl
@[simp] theorem counterIncrement_busy (s : State) : (counterIncrement s).busy = s.busy := rfl
@[simp] theorem counterIncrement_done (s : State) : (counterIncrement s).done = s.done := rfl
@[simp] theorem counterIncrement_err (s : State) : (counterIncrement s).err = s.err := rfl
@[simp] theorem counterIncrement_busywr (s : State) : (counterIncrement s).busywr = s.busywr := rfl
@[simp] theorem counterIncrement_errcode (s : State) : (counterIncrement s).errcode = s.errcode := rfl
@[simp] theorem counterIncrement_svalid (s : State) : (counterIncrement s).svalid = s.svalid := rfl
@[simp] theorem counterIncrement_cexh (s : State) : (counterIncrement s).cexh = (s.cexh || s.state[12] == 0xFFFFFFFF) := rfl
@[simp] theorem counterIncrement_keyld (s : State) : (counterIncrement s).keyld = s.keyld := rfl
@[simp] theorem counterIncrement_nonceld (s : State) : (counterIncrement s).nonceld = s.nonceld := rfl
@[simp] theorem counterIncrement_counter (s : State) : (counterIncrement s).counter = s.counter := rfl
@[simp] theorem counterIncrement_key (s : State) : (counterIncrement s).key = s.key := rfl
@[simp] theorem counterIncrement_nonce (s : State) : (counterIncrement s).nonce = s.nonce := rfl
@[simp] theorem counterIncrement_src (s : State) : (counterIncrement s).src = s.src := rfl
@[simp] theorem counterIncrement_dst (s : State) : (counterIncrement s).dst = s.dst := rfl
@[simp] theorem counterIncrement_len (s : State) : (counterIncrement s).len = s.len := rfl
@[simp] theorem counterIncrement_dcap (s : State) : (counterIncrement s).dcap = s.dcap := rfl
@[simp] theorem counterIncrement_state (s : State) : (counterIncrement s).state = s.state.set 12 (s.state[12] + 1) := rfl
@[simp] theorem counterIncrement_work (s : State) : (counterIncrement s).work = s.work := rfl
@[simp] theorem counterIncrement_ks (s : State) : (counterIncrement s).ks = s.ks := rfl
@[simp] theorem counterIncrement_curcmd (s : State) : (counterIncrement s).curcmd = s.curcmd := rfl
@[simp] theorem counterIncrement_phase (s : State) : (counterIncrement s).phase = s.phase := rfl
@[simp] theorem counterIncrement_ci (s : State) : (counterIncrement s).ci = s.ci := rfl
@[simp] theorem counterIncrement_ibyte (s : State) : (counterIncrement s).ibyte = s.ibyte := rfl
@[simp] theorem counterIncrement_mem (s : State) : (counterIncrement s).mem = s.mem := rfl
@[simp] theorem counterIncrement_base (s : State) : (counterIncrement s).base = s.base := rfl
@[simp] theorem counterIncrement_memBad (s : State) : (counterIncrement s).memBad = s.memBad := rfl
@[simp] theorem counterIncrement_memSilent (s : State) : (counterIncrement s).memSilent = s.memSilent := rfl
@[simp] theorem counterIncrement_schedule (s : State) : (counterIncrement s).schedule = s.schedule := rfl
@[simp] theorem counterIncrement_resp (s : State) : (counterIncrement s).resp = s.resp := rfl
@[simp] theorem counterIncrement_raced (s : State) : (counterIncrement s).raced = s.raced := rfl
@[simp] theorem counterIncrement_draws (s : State) : (counterIncrement s).draws = s.draws := rfl

/-! `setSchedule`: a move taken (00_scope.md R7). -/

@[simp] theorem setSchedule_ie (s : State) (rest : List Move) : (setSchedule s rest).ie = s.ie := rfl
@[simp] theorem setSchedule_busy (s : State) (rest : List Move) : (setSchedule s rest).busy = s.busy := rfl
@[simp] theorem setSchedule_done (s : State) (rest : List Move) : (setSchedule s rest).done = s.done := rfl
@[simp] theorem setSchedule_err (s : State) (rest : List Move) : (setSchedule s rest).err = s.err := rfl
@[simp] theorem setSchedule_busywr (s : State) (rest : List Move) : (setSchedule s rest).busywr = s.busywr := rfl
@[simp] theorem setSchedule_errcode (s : State) (rest : List Move) : (setSchedule s rest).errcode = s.errcode := rfl
@[simp] theorem setSchedule_svalid (s : State) (rest : List Move) : (setSchedule s rest).svalid = s.svalid := rfl
@[simp] theorem setSchedule_cexh (s : State) (rest : List Move) : (setSchedule s rest).cexh = s.cexh := rfl
@[simp] theorem setSchedule_keyld (s : State) (rest : List Move) : (setSchedule s rest).keyld = s.keyld := rfl
@[simp] theorem setSchedule_nonceld (s : State) (rest : List Move) : (setSchedule s rest).nonceld = s.nonceld := rfl
@[simp] theorem setSchedule_counter (s : State) (rest : List Move) : (setSchedule s rest).counter = s.counter := rfl
@[simp] theorem setSchedule_key (s : State) (rest : List Move) : (setSchedule s rest).key = s.key := rfl
@[simp] theorem setSchedule_nonce (s : State) (rest : List Move) : (setSchedule s rest).nonce = s.nonce := rfl
@[simp] theorem setSchedule_src (s : State) (rest : List Move) : (setSchedule s rest).src = s.src := rfl
@[simp] theorem setSchedule_dst (s : State) (rest : List Move) : (setSchedule s rest).dst = s.dst := rfl
@[simp] theorem setSchedule_len (s : State) (rest : List Move) : (setSchedule s rest).len = s.len := rfl
@[simp] theorem setSchedule_dcap (s : State) (rest : List Move) : (setSchedule s rest).dcap = s.dcap := rfl
@[simp] theorem setSchedule_state (s : State) (rest : List Move) : (setSchedule s rest).state = s.state := rfl
@[simp] theorem setSchedule_work (s : State) (rest : List Move) : (setSchedule s rest).work = s.work := rfl
@[simp] theorem setSchedule_ks (s : State) (rest : List Move) : (setSchedule s rest).ks = s.ks := rfl
@[simp] theorem setSchedule_curcmd (s : State) (rest : List Move) : (setSchedule s rest).curcmd = s.curcmd := rfl
@[simp] theorem setSchedule_phase (s : State) (rest : List Move) : (setSchedule s rest).phase = s.phase := rfl
@[simp] theorem setSchedule_ci (s : State) (rest : List Move) : (setSchedule s rest).ci = s.ci := rfl
@[simp] theorem setSchedule_ibyte (s : State) (rest : List Move) : (setSchedule s rest).ibyte = s.ibyte := rfl
@[simp] theorem setSchedule_mem (s : State) (rest : List Move) : (setSchedule s rest).mem = s.mem := rfl
@[simp] theorem setSchedule_base (s : State) (rest : List Move) : (setSchedule s rest).base = s.base := rfl
@[simp] theorem setSchedule_memBad (s : State) (rest : List Move) : (setSchedule s rest).memBad = s.memBad := rfl
@[simp] theorem setSchedule_memSilent (s : State) (rest : List Move) : (setSchedule s rest).memSilent = s.memSilent := rfl
@[simp] theorem setSchedule_schedule (s : State) (rest : List Move) : (setSchedule s rest).schedule = rest := rfl
@[simp] theorem setSchedule_resp (s : State) (rest : List Move) : (setSchedule s rest).resp = s.resp := rfl
@[simp] theorem setSchedule_raced (s : State) (rest : List Move) : (setSchedule s rest).raced = s.raced := rfl
@[simp] theorem setSchedule_draws (s : State) (rest : List Move) : (setSchedule s rest).draws = s.draws := rfl

/-! `setPhase`: the next CIPHER step (42_keystream_commands.md R161). -/

@[simp] theorem setPhase_ie (s : State) (p : Phase) : (setPhase s p).ie = s.ie := rfl
@[simp] theorem setPhase_busy (s : State) (p : Phase) : (setPhase s p).busy = s.busy := rfl
@[simp] theorem setPhase_done (s : State) (p : Phase) : (setPhase s p).done = s.done := rfl
@[simp] theorem setPhase_err (s : State) (p : Phase) : (setPhase s p).err = s.err := rfl
@[simp] theorem setPhase_busywr (s : State) (p : Phase) : (setPhase s p).busywr = s.busywr := rfl
@[simp] theorem setPhase_errcode (s : State) (p : Phase) : (setPhase s p).errcode = s.errcode := rfl
@[simp] theorem setPhase_svalid (s : State) (p : Phase) : (setPhase s p).svalid = s.svalid := rfl
@[simp] theorem setPhase_cexh (s : State) (p : Phase) : (setPhase s p).cexh = s.cexh := rfl
@[simp] theorem setPhase_keyld (s : State) (p : Phase) : (setPhase s p).keyld = s.keyld := rfl
@[simp] theorem setPhase_nonceld (s : State) (p : Phase) : (setPhase s p).nonceld = s.nonceld := rfl
@[simp] theorem setPhase_counter (s : State) (p : Phase) : (setPhase s p).counter = s.counter := rfl
@[simp] theorem setPhase_key (s : State) (p : Phase) : (setPhase s p).key = s.key := rfl
@[simp] theorem setPhase_nonce (s : State) (p : Phase) : (setPhase s p).nonce = s.nonce := rfl
@[simp] theorem setPhase_src (s : State) (p : Phase) : (setPhase s p).src = s.src := rfl
@[simp] theorem setPhase_dst (s : State) (p : Phase) : (setPhase s p).dst = s.dst := rfl
@[simp] theorem setPhase_len (s : State) (p : Phase) : (setPhase s p).len = s.len := rfl
@[simp] theorem setPhase_dcap (s : State) (p : Phase) : (setPhase s p).dcap = s.dcap := rfl
@[simp] theorem setPhase_state (s : State) (p : Phase) : (setPhase s p).state = s.state := rfl
@[simp] theorem setPhase_work (s : State) (p : Phase) : (setPhase s p).work = s.work := rfl
@[simp] theorem setPhase_ks (s : State) (p : Phase) : (setPhase s p).ks = s.ks := rfl
@[simp] theorem setPhase_curcmd (s : State) (p : Phase) : (setPhase s p).curcmd = s.curcmd := rfl
@[simp] theorem setPhase_phase (s : State) (p : Phase) : (setPhase s p).phase = p := rfl
@[simp] theorem setPhase_ci (s : State) (p : Phase) : (setPhase s p).ci = s.ci := rfl
@[simp] theorem setPhase_ibyte (s : State) (p : Phase) : (setPhase s p).ibyte = s.ibyte := rfl
@[simp] theorem setPhase_mem (s : State) (p : Phase) : (setPhase s p).mem = s.mem := rfl
@[simp] theorem setPhase_base (s : State) (p : Phase) : (setPhase s p).base = s.base := rfl
@[simp] theorem setPhase_memBad (s : State) (p : Phase) : (setPhase s p).memBad = s.memBad := rfl
@[simp] theorem setPhase_memSilent (s : State) (p : Phase) : (setPhase s p).memSilent = s.memSilent := rfl
@[simp] theorem setPhase_schedule (s : State) (p : Phase) : (setPhase s p).schedule = s.schedule := rfl
@[simp] theorem setPhase_resp (s : State) (p : Phase) : (setPhase s p).resp = s.resp := rfl
@[simp] theorem setPhase_raced (s : State) (p : Phase) : (setPhase s p).raced = s.raced := rfl
@[simp] theorem setPhase_draws (s : State) (p : Phase) : (setPhase s p).draws = s.draws := rfl

/-! `respond`: the response to a host access. -/

@[simp] theorem respond_ie (s : State) (r : Response) : (respond s r).ie = s.ie := rfl
@[simp] theorem respond_busy (s : State) (r : Response) : (respond s r).busy = s.busy := rfl
@[simp] theorem respond_done (s : State) (r : Response) : (respond s r).done = s.done := rfl
@[simp] theorem respond_err (s : State) (r : Response) : (respond s r).err = s.err := rfl
@[simp] theorem respond_busywr (s : State) (r : Response) : (respond s r).busywr = s.busywr := rfl
@[simp] theorem respond_errcode (s : State) (r : Response) : (respond s r).errcode = s.errcode := rfl
@[simp] theorem respond_svalid (s : State) (r : Response) : (respond s r).svalid = s.svalid := rfl
@[simp] theorem respond_cexh (s : State) (r : Response) : (respond s r).cexh = s.cexh := rfl
@[simp] theorem respond_keyld (s : State) (r : Response) : (respond s r).keyld = s.keyld := rfl
@[simp] theorem respond_nonceld (s : State) (r : Response) : (respond s r).nonceld = s.nonceld := rfl
@[simp] theorem respond_counter (s : State) (r : Response) : (respond s r).counter = s.counter := rfl
@[simp] theorem respond_key (s : State) (r : Response) : (respond s r).key = s.key := rfl
@[simp] theorem respond_nonce (s : State) (r : Response) : (respond s r).nonce = s.nonce := rfl
@[simp] theorem respond_src (s : State) (r : Response) : (respond s r).src = s.src := rfl
@[simp] theorem respond_dst (s : State) (r : Response) : (respond s r).dst = s.dst := rfl
@[simp] theorem respond_len (s : State) (r : Response) : (respond s r).len = s.len := rfl
@[simp] theorem respond_dcap (s : State) (r : Response) : (respond s r).dcap = s.dcap := rfl
@[simp] theorem respond_state (s : State) (r : Response) : (respond s r).state = s.state := rfl
@[simp] theorem respond_work (s : State) (r : Response) : (respond s r).work = s.work := rfl
@[simp] theorem respond_ks (s : State) (r : Response) : (respond s r).ks = s.ks := rfl
@[simp] theorem respond_curcmd (s : State) (r : Response) : (respond s r).curcmd = s.curcmd := rfl
@[simp] theorem respond_phase (s : State) (r : Response) : (respond s r).phase = s.phase := rfl
@[simp] theorem respond_ci (s : State) (r : Response) : (respond s r).ci = s.ci := rfl
@[simp] theorem respond_ibyte (s : State) (r : Response) : (respond s r).ibyte = s.ibyte := rfl
@[simp] theorem respond_mem (s : State) (r : Response) : (respond s r).mem = s.mem := rfl
@[simp] theorem respond_base (s : State) (r : Response) : (respond s r).base = s.base := rfl
@[simp] theorem respond_memBad (s : State) (r : Response) : (respond s r).memBad = s.memBad := rfl
@[simp] theorem respond_memSilent (s : State) (r : Response) : (respond s r).memSilent = s.memSilent := rfl
@[simp] theorem respond_schedule (s : State) (r : Response) : (respond s r).schedule = s.schedule := rfl
@[simp] theorem respond_resp (s : State) (r : Response) : (respond s r).resp = r := rfl
@[simp] theorem respond_raced (s : State) (r : Response) : (respond s r).raced = s.raced := rfl
@[simp] theorem respond_draws (s : State) (r : Response) : (respond s r).draws = s.draws := rfl

/-! `countDraw`: a draw taken. -/

@[simp] theorem countDraw_ie (s : State) : (countDraw s).ie = s.ie := rfl
@[simp] theorem countDraw_busy (s : State) : (countDraw s).busy = s.busy := rfl
@[simp] theorem countDraw_done (s : State) : (countDraw s).done = s.done := rfl
@[simp] theorem countDraw_err (s : State) : (countDraw s).err = s.err := rfl
@[simp] theorem countDraw_busywr (s : State) : (countDraw s).busywr = s.busywr := rfl
@[simp] theorem countDraw_errcode (s : State) : (countDraw s).errcode = s.errcode := rfl
@[simp] theorem countDraw_svalid (s : State) : (countDraw s).svalid = s.svalid := rfl
@[simp] theorem countDraw_cexh (s : State) : (countDraw s).cexh = s.cexh := rfl
@[simp] theorem countDraw_keyld (s : State) : (countDraw s).keyld = s.keyld := rfl
@[simp] theorem countDraw_nonceld (s : State) : (countDraw s).nonceld = s.nonceld := rfl
@[simp] theorem countDraw_counter (s : State) : (countDraw s).counter = s.counter := rfl
@[simp] theorem countDraw_key (s : State) : (countDraw s).key = s.key := rfl
@[simp] theorem countDraw_nonce (s : State) : (countDraw s).nonce = s.nonce := rfl
@[simp] theorem countDraw_src (s : State) : (countDraw s).src = s.src := rfl
@[simp] theorem countDraw_dst (s : State) : (countDraw s).dst = s.dst := rfl
@[simp] theorem countDraw_len (s : State) : (countDraw s).len = s.len := rfl
@[simp] theorem countDraw_dcap (s : State) : (countDraw s).dcap = s.dcap := rfl
@[simp] theorem countDraw_state (s : State) : (countDraw s).state = s.state := rfl
@[simp] theorem countDraw_work (s : State) : (countDraw s).work = s.work := rfl
@[simp] theorem countDraw_ks (s : State) : (countDraw s).ks = s.ks := rfl
@[simp] theorem countDraw_curcmd (s : State) : (countDraw s).curcmd = s.curcmd := rfl
@[simp] theorem countDraw_phase (s : State) : (countDraw s).phase = s.phase := rfl
@[simp] theorem countDraw_ci (s : State) : (countDraw s).ci = s.ci := rfl
@[simp] theorem countDraw_ibyte (s : State) : (countDraw s).ibyte = s.ibyte := rfl
@[simp] theorem countDraw_mem (s : State) : (countDraw s).mem = s.mem := rfl
@[simp] theorem countDraw_base (s : State) : (countDraw s).base = s.base := rfl
@[simp] theorem countDraw_memBad (s : State) : (countDraw s).memBad = s.memBad := rfl
@[simp] theorem countDraw_memSilent (s : State) : (countDraw s).memSilent = s.memSilent := rfl
@[simp] theorem countDraw_schedule (s : State) : (countDraw s).schedule = s.schedule := rfl
@[simp] theorem countDraw_resp (s : State) : (countDraw s).resp = s.resp := rfl
@[simp] theorem countDraw_raced (s : State) : (countDraw s).raced = s.raced := rfl
@[simp] theorem countDraw_draws (s : State) : (countDraw s).draws = s.draws + 1 := rfl

/-! `storeByte`: a byte of system memory (20_memory.md R62). -/

@[simp] theorem storeByte_ie (s : State) (a : Nat) (v : Byte) : (storeByte s a v).ie = s.ie := rfl
@[simp] theorem storeByte_busy (s : State) (a : Nat) (v : Byte) : (storeByte s a v).busy = s.busy := rfl
@[simp] theorem storeByte_done (s : State) (a : Nat) (v : Byte) : (storeByte s a v).done = s.done := rfl
@[simp] theorem storeByte_err (s : State) (a : Nat) (v : Byte) : (storeByte s a v).err = s.err := rfl
@[simp] theorem storeByte_busywr (s : State) (a : Nat) (v : Byte) : (storeByte s a v).busywr = s.busywr := rfl
@[simp] theorem storeByte_errcode (s : State) (a : Nat) (v : Byte) : (storeByte s a v).errcode = s.errcode := rfl
@[simp] theorem storeByte_svalid (s : State) (a : Nat) (v : Byte) : (storeByte s a v).svalid = s.svalid := rfl
@[simp] theorem storeByte_cexh (s : State) (a : Nat) (v : Byte) : (storeByte s a v).cexh = s.cexh := rfl
@[simp] theorem storeByte_keyld (s : State) (a : Nat) (v : Byte) : (storeByte s a v).keyld = s.keyld := rfl
@[simp] theorem storeByte_nonceld (s : State) (a : Nat) (v : Byte) : (storeByte s a v).nonceld = s.nonceld := rfl
@[simp] theorem storeByte_counter (s : State) (a : Nat) (v : Byte) : (storeByte s a v).counter = s.counter := rfl
@[simp] theorem storeByte_key (s : State) (a : Nat) (v : Byte) : (storeByte s a v).key = s.key := rfl
@[simp] theorem storeByte_nonce (s : State) (a : Nat) (v : Byte) : (storeByte s a v).nonce = s.nonce := rfl
@[simp] theorem storeByte_src (s : State) (a : Nat) (v : Byte) : (storeByte s a v).src = s.src := rfl
@[simp] theorem storeByte_dst (s : State) (a : Nat) (v : Byte) : (storeByte s a v).dst = s.dst := rfl
@[simp] theorem storeByte_len (s : State) (a : Nat) (v : Byte) : (storeByte s a v).len = s.len := rfl
@[simp] theorem storeByte_dcap (s : State) (a : Nat) (v : Byte) : (storeByte s a v).dcap = s.dcap := rfl
@[simp] theorem storeByte_state (s : State) (a : Nat) (v : Byte) : (storeByte s a v).state = s.state := rfl
@[simp] theorem storeByte_work (s : State) (a : Nat) (v : Byte) : (storeByte s a v).work = s.work := rfl
@[simp] theorem storeByte_ks (s : State) (a : Nat) (v : Byte) : (storeByte s a v).ks = s.ks := rfl
@[simp] theorem storeByte_curcmd (s : State) (a : Nat) (v : Byte) : (storeByte s a v).curcmd = s.curcmd := rfl
@[simp] theorem storeByte_phase (s : State) (a : Nat) (v : Byte) : (storeByte s a v).phase = s.phase := rfl
@[simp] theorem storeByte_ci (s : State) (a : Nat) (v : Byte) : (storeByte s a v).ci = s.ci := rfl
@[simp] theorem storeByte_ibyte (s : State) (a : Nat) (v : Byte) : (storeByte s a v).ibyte = s.ibyte := rfl
@[simp] theorem storeByte_mem (s : State) (a : Nat) (v : Byte) : (storeByte s a v).mem = s.mem.write a v := rfl
@[simp] theorem storeByte_base (s : State) (a : Nat) (v : Byte) : (storeByte s a v).base = s.base := rfl
@[simp] theorem storeByte_memBad (s : State) (a : Nat) (v : Byte) : (storeByte s a v).memBad = s.memBad := rfl
@[simp] theorem storeByte_memSilent (s : State) (a : Nat) (v : Byte) : (storeByte s a v).memSilent = s.memSilent := rfl
@[simp] theorem storeByte_schedule (s : State) (a : Nat) (v : Byte) : (storeByte s a v).schedule = s.schedule := rfl
@[simp] theorem storeByte_resp (s : State) (a : Nat) (v : Byte) : (storeByte s a v).resp = s.resp := rfl
@[simp] theorem storeByte_raced (s : State) (a : Nat) (v : Byte) : (storeByte s a v).raced = s.raced := rfl
@[simp] theorem storeByte_draws (s : State) (a : Nat) (v : Byte) : (storeByte s a v).draws = s.draws := rfl

/-! `dropWrite`: a dropped register write (10_state.md R22). -/

@[simp] theorem dropWrite_ie (s : State) : (dropWrite s).ie = s.ie := rfl
@[simp] theorem dropWrite_busy (s : State) : (dropWrite s).busy = s.busy := rfl
@[simp] theorem dropWrite_done (s : State) : (dropWrite s).done = s.done := rfl
@[simp] theorem dropWrite_err (s : State) : (dropWrite s).err = s.err := rfl
@[simp] theorem dropWrite_busywr (s : State) : (dropWrite s).busywr = true := rfl
@[simp] theorem dropWrite_errcode (s : State) : (dropWrite s).errcode = s.errcode := rfl
@[simp] theorem dropWrite_svalid (s : State) : (dropWrite s).svalid = s.svalid := rfl
@[simp] theorem dropWrite_cexh (s : State) : (dropWrite s).cexh = s.cexh := rfl
@[simp] theorem dropWrite_keyld (s : State) : (dropWrite s).keyld = s.keyld := rfl
@[simp] theorem dropWrite_nonceld (s : State) : (dropWrite s).nonceld = s.nonceld := rfl
@[simp] theorem dropWrite_counter (s : State) : (dropWrite s).counter = s.counter := rfl
@[simp] theorem dropWrite_key (s : State) : (dropWrite s).key = s.key := rfl
@[simp] theorem dropWrite_nonce (s : State) : (dropWrite s).nonce = s.nonce := rfl
@[simp] theorem dropWrite_src (s : State) : (dropWrite s).src = s.src := rfl
@[simp] theorem dropWrite_dst (s : State) : (dropWrite s).dst = s.dst := rfl
@[simp] theorem dropWrite_len (s : State) : (dropWrite s).len = s.len := rfl
@[simp] theorem dropWrite_dcap (s : State) : (dropWrite s).dcap = s.dcap := rfl
@[simp] theorem dropWrite_state (s : State) : (dropWrite s).state = s.state := rfl
@[simp] theorem dropWrite_work (s : State) : (dropWrite s).work = s.work := rfl
@[simp] theorem dropWrite_ks (s : State) : (dropWrite s).ks = s.ks := rfl
@[simp] theorem dropWrite_curcmd (s : State) : (dropWrite s).curcmd = s.curcmd := rfl
@[simp] theorem dropWrite_phase (s : State) : (dropWrite s).phase = s.phase := rfl
@[simp] theorem dropWrite_ci (s : State) : (dropWrite s).ci = s.ci := rfl
@[simp] theorem dropWrite_ibyte (s : State) : (dropWrite s).ibyte = s.ibyte := rfl
@[simp] theorem dropWrite_mem (s : State) : (dropWrite s).mem = s.mem := rfl
@[simp] theorem dropWrite_base (s : State) : (dropWrite s).base = s.base := rfl
@[simp] theorem dropWrite_memBad (s : State) : (dropWrite s).memBad = s.memBad := rfl
@[simp] theorem dropWrite_memSilent (s : State) : (dropWrite s).memSilent = s.memSilent := rfl
@[simp] theorem dropWrite_schedule (s : State) : (dropWrite s).schedule = s.schedule := rfl
@[simp] theorem dropWrite_resp (s : State) : (dropWrite s).resp = s.resp := rfl
@[simp] theorem dropWrite_raced (s : State) : (dropWrite s).raced = s.raced := rfl
@[simp] theorem dropWrite_draws (s : State) : (dropWrite s).draws = s.draws := rfl

/-! `accept`: acceptance (60_exceptions.md R204). -/

@[simp] theorem accept_ie (s : State) (w : Word) : (accept s w).ie = s.ie := rfl
@[simp] theorem accept_busy (s : State) (w : Word) : (accept s w).busy = true := rfl
@[simp] theorem accept_done (s : State) (w : Word) : (accept s w).done = false := rfl
@[simp] theorem accept_err (s : State) (w : Word) : (accept s w).err = false := rfl
@[simp] theorem accept_busywr (s : State) (w : Word) : (accept s w).busywr = s.busywr := rfl
@[simp] theorem accept_errcode (s : State) (w : Word) : (accept s w).errcode = 0 := rfl
@[simp] theorem accept_svalid (s : State) (w : Word) : (accept s w).svalid = s.svalid := rfl
@[simp] theorem accept_cexh (s : State) (w : Word) : (accept s w).cexh = s.cexh := rfl
@[simp] theorem accept_keyld (s : State) (w : Word) : (accept s w).keyld = s.keyld := rfl
@[simp] theorem accept_nonceld (s : State) (w : Word) : (accept s w).nonceld = s.nonceld := rfl
@[simp] theorem accept_counter (s : State) (w : Word) : (accept s w).counter = s.counter := rfl
@[simp] theorem accept_key (s : State) (w : Word) : (accept s w).key = s.key := rfl
@[simp] theorem accept_nonce (s : State) (w : Word) : (accept s w).nonce = s.nonce := rfl
@[simp] theorem accept_src (s : State) (w : Word) : (accept s w).src = s.src := rfl
@[simp] theorem accept_dst (s : State) (w : Word) : (accept s w).dst = s.dst := rfl
@[simp] theorem accept_len (s : State) (w : Word) : (accept s w).len = s.len := rfl
@[simp] theorem accept_dcap (s : State) (w : Word) : (accept s w).dcap = s.dcap := rfl
@[simp] theorem accept_state (s : State) (w : Word) : (accept s w).state = s.state := rfl
@[simp] theorem accept_work (s : State) (w : Word) : (accept s w).work = s.work := rfl
@[simp] theorem accept_ks (s : State) (w : Word) : (accept s w).ks = s.ks := rfl
@[simp] theorem accept_curcmd (s : State) (w : Word) : (accept s w).curcmd = w := rfl
@[simp] theorem accept_phase (s : State) (w : Word) : (accept s w).phase = .check := rfl
@[simp] theorem accept_ci (s : State) (w : Word) : (accept s w).ci = s.ci := rfl
@[simp] theorem accept_ibyte (s : State) (w : Word) : (accept s w).ibyte = s.ibyte := rfl
@[simp] theorem accept_mem (s : State) (w : Word) : (accept s w).mem = s.mem := rfl
@[simp] theorem accept_base (s : State) (w : Word) : (accept s w).base = s.base := rfl
@[simp] theorem accept_memBad (s : State) (w : Word) : (accept s w).memBad = s.memBad := rfl
@[simp] theorem accept_memSilent (s : State) (w : Word) : (accept s w).memSilent = s.memSilent := rfl
@[simp] theorem accept_schedule (s : State) (w : Word) : (accept s w).schedule = s.schedule := rfl
@[simp] theorem accept_resp (s : State) (w : Word) : (accept s w).resp = s.resp := rfl
@[simp] theorem accept_raced (s : State) (w : Word) : (accept s w).raced = false := rfl
@[simp] theorem accept_draws (s : State) (w : Word) : (accept s w).draws = s.draws := rfl

/-! `finish`: completion (60_exceptions.md R205). -/

@[simp] theorem finish_ie (s : State) (c : BitVec 4) : (finish s c).ie = s.ie := rfl
@[simp] theorem finish_busy (s : State) (c : BitVec 4) : (finish s c).busy = false := rfl
@[simp] theorem finish_done (s : State) (c : BitVec 4) : (finish s c).done = true := rfl
@[simp] theorem finish_err (s : State) (c : BitVec 4) : (finish s c).err = if c = 0 then s.err else true := rfl
@[simp] theorem finish_busywr (s : State) (c : BitVec 4) : (finish s c).busywr = s.busywr := rfl
@[simp] theorem finish_errcode (s : State) (c : BitVec 4) : (finish s c).errcode = if c = 0 then s.errcode else c := rfl
@[simp] theorem finish_svalid (s : State) (c : BitVec 4) : (finish s c).svalid = s.svalid := rfl
@[simp] theorem finish_cexh (s : State) (c : BitVec 4) : (finish s c).cexh = s.cexh := rfl
@[simp] theorem finish_keyld (s : State) (c : BitVec 4) : (finish s c).keyld = s.keyld := rfl
@[simp] theorem finish_nonceld (s : State) (c : BitVec 4) : (finish s c).nonceld = s.nonceld := rfl
@[simp] theorem finish_counter (s : State) (c : BitVec 4) : (finish s c).counter = s.counter := rfl
@[simp] theorem finish_key (s : State) (c : BitVec 4) : (finish s c).key = s.key := rfl
@[simp] theorem finish_nonce (s : State) (c : BitVec 4) : (finish s c).nonce = s.nonce := rfl
@[simp] theorem finish_src (s : State) (c : BitVec 4) : (finish s c).src = s.src := rfl
@[simp] theorem finish_dst (s : State) (c : BitVec 4) : (finish s c).dst = s.dst := rfl
@[simp] theorem finish_len (s : State) (c : BitVec 4) : (finish s c).len = s.len := rfl
@[simp] theorem finish_dcap (s : State) (c : BitVec 4) : (finish s c).dcap = s.dcap := rfl
@[simp] theorem finish_state (s : State) (c : BitVec 4) : (finish s c).state = s.state := rfl
@[simp] theorem finish_work (s : State) (c : BitVec 4) : (finish s c).work = s.work := rfl
@[simp] theorem finish_ks (s : State) (c : BitVec 4) : (finish s c).ks = s.ks := rfl
@[simp] theorem finish_curcmd (s : State) (c : BitVec 4) : (finish s c).curcmd = s.curcmd := rfl
@[simp] theorem finish_phase (s : State) (c : BitVec 4) : (finish s c).phase = .check := rfl
@[simp] theorem finish_ci (s : State) (c : BitVec 4) : (finish s c).ci = s.ci := rfl
@[simp] theorem finish_ibyte (s : State) (c : BitVec 4) : (finish s c).ibyte = s.ibyte := rfl
@[simp] theorem finish_mem (s : State) (c : BitVec 4) : (finish s c).mem = s.mem := rfl
@[simp] theorem finish_base (s : State) (c : BitVec 4) : (finish s c).base = s.base := rfl
@[simp] theorem finish_memBad (s : State) (c : BitVec 4) : (finish s c).memBad = s.memBad := rfl
@[simp] theorem finish_memSilent (s : State) (c : BitVec 4) : (finish s c).memSilent = s.memSilent := rfl
@[simp] theorem finish_schedule (s : State) (c : BitVec 4) : (finish s c).schedule = s.schedule := rfl
@[simp] theorem finish_resp (s : State) (c : BitVec 4) : (finish s c).resp = s.resp := rfl
@[simp] theorem finish_raced (s : State) (c : BitVec 4) : (finish s c).raced = s.raced := rfl
@[simp] theorem finish_draws (s : State) (c : BitVec 4) : (finish s c).draws = s.draws := rfl

/-! `captureState`: the State Initializer into STATE (41_control_commands.md R131). -/

@[simp] theorem captureState_ie (s : State) : (captureState s).ie = s.ie := rfl
@[simp] theorem captureState_busy (s : State) : (captureState s).busy = s.busy := rfl
@[simp] theorem captureState_done (s : State) : (captureState s).done = s.done := rfl
@[simp] theorem captureState_err (s : State) : (captureState s).err = s.err := rfl
@[simp] theorem captureState_busywr (s : State) : (captureState s).busywr = s.busywr := rfl
@[simp] theorem captureState_errcode (s : State) : (captureState s).errcode = s.errcode := rfl
@[simp] theorem captureState_svalid (s : State) : (captureState s).svalid = true := rfl
@[simp] theorem captureState_cexh (s : State) : (captureState s).cexh = false := rfl
@[simp] theorem captureState_keyld (s : State) : (captureState s).keyld = s.keyld := rfl
@[simp] theorem captureState_nonceld (s : State) : (captureState s).nonceld = s.nonceld := rfl
@[simp] theorem captureState_counter (s : State) : (captureState s).counter = s.counter := rfl
@[simp] theorem captureState_key (s : State) : (captureState s).key = s.key := rfl
@[simp] theorem captureState_nonce (s : State) : (captureState s).nonce = s.nonce := rfl
@[simp] theorem captureState_src (s : State) : (captureState s).src = s.src := rfl
@[simp] theorem captureState_dst (s : State) : (captureState s).dst = s.dst := rfl
@[simp] theorem captureState_len (s : State) : (captureState s).len = s.len := rfl
@[simp] theorem captureState_dcap (s : State) : (captureState s).dcap = s.dcap := rfl
@[simp] theorem captureState_state (s : State) : (captureState s).state = initState s.key s.counter s.nonce := rfl
@[simp] theorem captureState_work (s : State) : (captureState s).work = s.work := rfl
@[simp] theorem captureState_ks (s : State) : (captureState s).ks = s.ks := rfl
@[simp] theorem captureState_curcmd (s : State) : (captureState s).curcmd = s.curcmd := rfl
@[simp] theorem captureState_phase (s : State) : (captureState s).phase = s.phase := rfl
@[simp] theorem captureState_ci (s : State) : (captureState s).ci = s.ci := rfl
@[simp] theorem captureState_ibyte (s : State) : (captureState s).ibyte = s.ibyte := rfl
@[simp] theorem captureState_mem (s : State) : (captureState s).mem = s.mem := rfl
@[simp] theorem captureState_base (s : State) : (captureState s).base = s.base := rfl
@[simp] theorem captureState_memBad (s : State) : (captureState s).memBad = s.memBad := rfl
@[simp] theorem captureState_memSilent (s : State) : (captureState s).memSilent = s.memSilent := rfl
@[simp] theorem captureState_schedule (s : State) : (captureState s).schedule = s.schedule := rfl
@[simp] theorem captureState_resp (s : State) : (captureState s).resp = s.resp := rfl
@[simp] theorem captureState_raced (s : State) : (captureState s).raced = s.raced := rfl
@[simp] theorem captureState_draws (s : State) : (captureState s).draws = s.draws := rfl

/-! `generateBlock`: one keystream block (40_datapath.md R107). -/

@[simp] theorem generateBlock_ie (s : State) (dr : Nat) : (generateBlock s dr).ie = s.ie := rfl
@[simp] theorem generateBlock_busy (s : State) (dr : Nat) : (generateBlock s dr).busy = s.busy := rfl
@[simp] theorem generateBlock_done (s : State) (dr : Nat) : (generateBlock s dr).done = s.done := rfl
@[simp] theorem generateBlock_err (s : State) (dr : Nat) : (generateBlock s dr).err = s.err := rfl
@[simp] theorem generateBlock_busywr (s : State) (dr : Nat) : (generateBlock s dr).busywr = s.busywr := rfl
@[simp] theorem generateBlock_errcode (s : State) (dr : Nat) : (generateBlock s dr).errcode = s.errcode := rfl
@[simp] theorem generateBlock_svalid (s : State) (dr : Nat) : (generateBlock s dr).svalid = s.svalid := rfl
@[simp] theorem generateBlock_cexh (s : State) (dr : Nat) : (generateBlock s dr).cexh = s.cexh := rfl
@[simp] theorem generateBlock_keyld (s : State) (dr : Nat) : (generateBlock s dr).keyld = s.keyld := rfl
@[simp] theorem generateBlock_nonceld (s : State) (dr : Nat) : (generateBlock s dr).nonceld = s.nonceld := rfl
@[simp] theorem generateBlock_counter (s : State) (dr : Nat) : (generateBlock s dr).counter = s.counter := rfl
@[simp] theorem generateBlock_key (s : State) (dr : Nat) : (generateBlock s dr).key = s.key := rfl
@[simp] theorem generateBlock_nonce (s : State) (dr : Nat) : (generateBlock s dr).nonce = s.nonce := rfl
@[simp] theorem generateBlock_src (s : State) (dr : Nat) : (generateBlock s dr).src = s.src := rfl
@[simp] theorem generateBlock_dst (s : State) (dr : Nat) : (generateBlock s dr).dst = s.dst := rfl
@[simp] theorem generateBlock_len (s : State) (dr : Nat) : (generateBlock s dr).len = s.len := rfl
@[simp] theorem generateBlock_dcap (s : State) (dr : Nat) : (generateBlock s dr).dcap = s.dcap := rfl
@[simp] theorem generateBlock_state (s : State) (dr : Nat) : (generateBlock s dr).state = s.state := rfl
@[simp] theorem generateBlock_work (s : State) (dr : Nat) : (generateBlock s dr).work = rounds dr s.state := rfl
@[simp] theorem generateBlock_ks (s : State) (dr : Nat) : (generateBlock s dr).ks = block s.state dr := rfl
@[simp] theorem generateBlock_curcmd (s : State) (dr : Nat) : (generateBlock s dr).curcmd = s.curcmd := rfl
@[simp] theorem generateBlock_phase (s : State) (dr : Nat) : (generateBlock s dr).phase = s.phase := rfl
@[simp] theorem generateBlock_ci (s : State) (dr : Nat) : (generateBlock s dr).ci = s.ci := rfl
@[simp] theorem generateBlock_ibyte (s : State) (dr : Nat) : (generateBlock s dr).ibyte = s.ibyte := rfl
@[simp] theorem generateBlock_mem (s : State) (dr : Nat) : (generateBlock s dr).mem = s.mem := rfl
@[simp] theorem generateBlock_base (s : State) (dr : Nat) : (generateBlock s dr).base = s.base := rfl
@[simp] theorem generateBlock_memBad (s : State) (dr : Nat) : (generateBlock s dr).memBad = s.memBad := rfl
@[simp] theorem generateBlock_memSilent (s : State) (dr : Nat) : (generateBlock s dr).memSilent = s.memSilent := rfl
@[simp] theorem generateBlock_schedule (s : State) (dr : Nat) : (generateBlock s dr).schedule = s.schedule := rfl
@[simp] theorem generateBlock_resp (s : State) (dr : Nat) : (generateBlock s dr).resp = s.resp := rfl
@[simp] theorem generateBlock_raced (s : State) (dr : Nat) : (generateBlock s dr).raced = s.raced := rfl
@[simp] theorem generateBlock_draws (s : State) (dr : Nat) : (generateBlock s dr).draws = s.draws := rfl

/-! `zeroizeState`: the clears of ZEROIZE (41_control_commands.md R132). -/

@[simp] theorem zeroizeState_ie (s : State) : (zeroizeState s).ie = s.ie := rfl
@[simp] theorem zeroizeState_busy (s : State) : (zeroizeState s).busy = s.busy := rfl
@[simp] theorem zeroizeState_done (s : State) : (zeroizeState s).done = s.done := rfl
@[simp] theorem zeroizeState_err (s : State) : (zeroizeState s).err = s.err := rfl
@[simp] theorem zeroizeState_busywr (s : State) : (zeroizeState s).busywr = s.busywr := rfl
@[simp] theorem zeroizeState_errcode (s : State) : (zeroizeState s).errcode = s.errcode := rfl
@[simp] theorem zeroizeState_svalid (s : State) : (zeroizeState s).svalid = false := rfl
@[simp] theorem zeroizeState_cexh (s : State) : (zeroizeState s).cexh = false := rfl
@[simp] theorem zeroizeState_keyld (s : State) : (zeroizeState s).keyld = 0 := rfl
@[simp] theorem zeroizeState_nonceld (s : State) : (zeroizeState s).nonceld = 0 := rfl
@[simp] theorem zeroizeState_counter (s : State) : (zeroizeState s).counter = s.counter := rfl
@[simp] theorem zeroizeState_key (s : State) : (zeroizeState s).key = Vector.replicate 8 0 := rfl
@[simp] theorem zeroizeState_nonce (s : State) : (zeroizeState s).nonce = Vector.replicate 3 0 := rfl
@[simp] theorem zeroizeState_src (s : State) : (zeroizeState s).src = s.src := rfl
@[simp] theorem zeroizeState_dst (s : State) : (zeroizeState s).dst = s.dst := rfl
@[simp] theorem zeroizeState_len (s : State) : (zeroizeState s).len = s.len := rfl
@[simp] theorem zeroizeState_dcap (s : State) : (zeroizeState s).dcap = s.dcap := rfl
@[simp] theorem zeroizeState_state (s : State) : (zeroizeState s).state = Vector.replicate 16 0 := rfl
@[simp] theorem zeroizeState_work (s : State) : (zeroizeState s).work = Vector.replicate 16 0 := rfl
@[simp] theorem zeroizeState_ks (s : State) : (zeroizeState s).ks = Vector.replicate 64 0 := rfl
@[simp] theorem zeroizeState_curcmd (s : State) : (zeroizeState s).curcmd = s.curcmd := rfl
@[simp] theorem zeroizeState_phase (s : State) : (zeroizeState s).phase = s.phase := rfl
@[simp] theorem zeroizeState_ci (s : State) : (zeroizeState s).ci = s.ci := rfl
@[simp] theorem zeroizeState_ibyte (s : State) : (zeroizeState s).ibyte = 0 := rfl
@[simp] theorem zeroizeState_mem (s : State) : (zeroizeState s).mem = s.mem := rfl
@[simp] theorem zeroizeState_base (s : State) : (zeroizeState s).base = s.base := rfl
@[simp] theorem zeroizeState_memBad (s : State) : (zeroizeState s).memBad = s.memBad := rfl
@[simp] theorem zeroizeState_memSilent (s : State) : (zeroizeState s).memSilent = s.memSilent := rfl
@[simp] theorem zeroizeState_schedule (s : State) : (zeroizeState s).schedule = s.schedule := rfl
@[simp] theorem zeroizeState_resp (s : State) : (zeroizeState s).resp = s.resp := rfl
@[simp] theorem zeroizeState_raced (s : State) : (zeroizeState s).raced = s.raced := rfl
@[simp] theorem zeroizeState_draws (s : State) : (zeroizeState s).draws = s.draws := rfl

/-! `cipherStart`: the initialization of CIPHER (42_keystream_commands.md R155). -/

@[simp] theorem cipherStart_ie (s : State) : (cipherStart s).ie = s.ie := rfl
@[simp] theorem cipherStart_busy (s : State) : (cipherStart s).busy = s.busy := rfl
@[simp] theorem cipherStart_done (s : State) : (cipherStart s).done = s.done := rfl
@[simp] theorem cipherStart_err (s : State) : (cipherStart s).err = s.err := rfl
@[simp] theorem cipherStart_busywr (s : State) : (cipherStart s).busywr = s.busywr := rfl
@[simp] theorem cipherStart_errcode (s : State) : (cipherStart s).errcode = s.errcode := rfl
@[simp] theorem cipherStart_svalid (s : State) : (cipherStart s).svalid = true := rfl
@[simp] theorem cipherStart_cexh (s : State) : (cipherStart s).cexh = false := rfl
@[simp] theorem cipherStart_keyld (s : State) : (cipherStart s).keyld = s.keyld := rfl
@[simp] theorem cipherStart_nonceld (s : State) : (cipherStart s).nonceld = s.nonceld := rfl
@[simp] theorem cipherStart_counter (s : State) : (cipherStart s).counter = s.counter := rfl
@[simp] theorem cipherStart_key (s : State) : (cipherStart s).key = s.key := rfl
@[simp] theorem cipherStart_nonce (s : State) : (cipherStart s).nonce = s.nonce := rfl
@[simp] theorem cipherStart_src (s : State) : (cipherStart s).src = s.src := rfl
@[simp] theorem cipherStart_dst (s : State) : (cipherStart s).dst = s.dst := rfl
@[simp] theorem cipherStart_len (s : State) : (cipherStart s).len = s.len := rfl
@[simp] theorem cipherStart_dcap (s : State) : (cipherStart s).dcap = s.dcap := rfl
@[simp] theorem cipherStart_state (s : State) : (cipherStart s).state = initState s.key s.counter s.nonce := rfl
@[simp] theorem cipherStart_work (s : State) : (cipherStart s).work = s.work := rfl
@[simp] theorem cipherStart_ks (s : State) : (cipherStart s).ks = s.ks := rfl
@[simp] theorem cipherStart_curcmd (s : State) : (cipherStart s).curcmd = s.curcmd := rfl
@[simp] theorem cipherStart_phase (s : State) : (cipherStart s).phase = s.phase := rfl
@[simp] theorem cipherStart_ci (s : State) : (cipherStart s).ci = 0 := rfl
@[simp] theorem cipherStart_ibyte (s : State) : (cipherStart s).ibyte = s.ibyte := rfl
@[simp] theorem cipherStart_mem (s : State) : (cipherStart s).mem = s.mem := rfl
@[simp] theorem cipherStart_base (s : State) : (cipherStart s).base = s.base := rfl
@[simp] theorem cipherStart_memBad (s : State) : (cipherStart s).memBad = s.memBad := rfl
@[simp] theorem cipherStart_memSilent (s : State) : (cipherStart s).memSilent = s.memSilent := rfl
@[simp] theorem cipherStart_schedule (s : State) : (cipherStart s).schedule = s.schedule := rfl
@[simp] theorem cipherStart_resp (s : State) : (cipherStart s).resp = s.resp := rfl
@[simp] theorem cipherStart_raced (s : State) : (cipherStart s).raced = s.raced := rfl
@[simp] theorem cipherStart_draws (s : State) : (cipherStart s).draws = s.draws := rfl

/-! `cipherGen`: the GEN step (42_keystream_commands.md R161). -/

@[simp] theorem cipherGen_ie (s : State) : (cipherGen s).ie = s.ie := by simp [cipherGen]
@[simp] theorem cipherGen_busy (s : State) : (cipherGen s).busy = s.busy := by simp [cipherGen]
@[simp] theorem cipherGen_done (s : State) : (cipherGen s).done = s.done := by simp [cipherGen]
@[simp] theorem cipherGen_err (s : State) : (cipherGen s).err = s.err := by simp [cipherGen]
@[simp] theorem cipherGen_busywr (s : State) : (cipherGen s).busywr = s.busywr := by simp [cipherGen]
@[simp] theorem cipherGen_errcode (s : State) : (cipherGen s).errcode = s.errcode := by simp [cipherGen]
@[simp] theorem cipherGen_svalid (s : State) : (cipherGen s).svalid = s.svalid := by simp [cipherGen]
@[simp] theorem cipherGen_cexh (s : State) : (cipherGen s).cexh = (s.cexh || s.state[12] == 0xFFFFFFFF) := by simp [cipherGen]
@[simp] theorem cipherGen_keyld (s : State) : (cipherGen s).keyld = s.keyld := by simp [cipherGen]
@[simp] theorem cipherGen_nonceld (s : State) : (cipherGen s).nonceld = s.nonceld := by simp [cipherGen]
@[simp] theorem cipherGen_counter (s : State) : (cipherGen s).counter = s.counter := by simp [cipherGen]
@[simp] theorem cipherGen_key (s : State) : (cipherGen s).key = s.key := by simp [cipherGen]
@[simp] theorem cipherGen_nonce (s : State) : (cipherGen s).nonce = s.nonce := by simp [cipherGen]
@[simp] theorem cipherGen_src (s : State) : (cipherGen s).src = s.src := by simp [cipherGen]
@[simp] theorem cipherGen_dst (s : State) : (cipherGen s).dst = s.dst := by simp [cipherGen]
@[simp] theorem cipherGen_len (s : State) : (cipherGen s).len = s.len := by simp [cipherGen]
@[simp] theorem cipherGen_dcap (s : State) : (cipherGen s).dcap = s.dcap := by simp [cipherGen]
@[simp] theorem cipherGen_state (s : State) : (cipherGen s).state = s.state.set 12 (s.state[12] + 1) := by simp [cipherGen]
@[simp] theorem cipherGen_work (s : State) : (cipherGen s).work = rounds Config.cipherDR s.state := by simp [cipherGen]
@[simp] theorem cipherGen_ks (s : State) : (cipherGen s).ks = block s.state Config.cipherDR := by simp [cipherGen]
@[simp] theorem cipherGen_curcmd (s : State) : (cipherGen s).curcmd = s.curcmd := by simp [cipherGen]
@[simp] theorem cipherGen_phase (s : State) : (cipherGen s).phase = .rd := by simp [cipherGen]
@[simp] theorem cipherGen_ci (s : State) : (cipherGen s).ci = s.ci := by simp [cipherGen]
@[simp] theorem cipherGen_ibyte (s : State) : (cipherGen s).ibyte = s.ibyte := by simp [cipherGen]
@[simp] theorem cipherGen_mem (s : State) : (cipherGen s).mem = s.mem := by simp [cipherGen]
@[simp] theorem cipherGen_base (s : State) : (cipherGen s).base = s.base := by simp [cipherGen]
@[simp] theorem cipherGen_memBad (s : State) : (cipherGen s).memBad = s.memBad := by simp [cipherGen]
@[simp] theorem cipherGen_memSilent (s : State) : (cipherGen s).memSilent = s.memSilent := by simp [cipherGen]
@[simp] theorem cipherGen_schedule (s : State) : (cipherGen s).schedule = s.schedule := by simp [cipherGen]
@[simp] theorem cipherGen_resp (s : State) : (cipherGen s).resp = s.resp := by simp [cipherGen]
@[simp] theorem cipherGen_raced (s : State) : (cipherGen s).raced = s.raced := by simp [cipherGen]
@[simp] theorem cipherGen_draws (s : State) : (cipherGen s).draws = s.draws := by simp [cipherGen]

/-! `cipherFetch`: the RD step (42_keystream_commands.md R161). -/

@[simp] theorem cipherFetch_ie (s : State) : (cipherFetch s).ie = s.ie := rfl
@[simp] theorem cipherFetch_busy (s : State) : (cipherFetch s).busy = s.busy := rfl
@[simp] theorem cipherFetch_done (s : State) : (cipherFetch s).done = s.done := rfl
@[simp] theorem cipherFetch_err (s : State) : (cipherFetch s).err = s.err := rfl
@[simp] theorem cipherFetch_busywr (s : State) : (cipherFetch s).busywr = s.busywr := rfl
@[simp] theorem cipherFetch_errcode (s : State) : (cipherFetch s).errcode = s.errcode := rfl
@[simp] theorem cipherFetch_svalid (s : State) : (cipherFetch s).svalid = s.svalid := rfl
@[simp] theorem cipherFetch_cexh (s : State) : (cipherFetch s).cexh = s.cexh := rfl
@[simp] theorem cipherFetch_keyld (s : State) : (cipherFetch s).keyld = s.keyld := rfl
@[simp] theorem cipherFetch_nonceld (s : State) : (cipherFetch s).nonceld = s.nonceld := rfl
@[simp] theorem cipherFetch_counter (s : State) : (cipherFetch s).counter = s.counter := rfl
@[simp] theorem cipherFetch_key (s : State) : (cipherFetch s).key = s.key := rfl
@[simp] theorem cipherFetch_nonce (s : State) : (cipherFetch s).nonce = s.nonce := rfl
@[simp] theorem cipherFetch_src (s : State) : (cipherFetch s).src = s.src := rfl
@[simp] theorem cipherFetch_dst (s : State) : (cipherFetch s).dst = s.dst := rfl
@[simp] theorem cipherFetch_len (s : State) : (cipherFetch s).len = s.len := rfl
@[simp] theorem cipherFetch_dcap (s : State) : (cipherFetch s).dcap = s.dcap := rfl
@[simp] theorem cipherFetch_state (s : State) : (cipherFetch s).state = s.state := rfl
@[simp] theorem cipherFetch_work (s : State) : (cipherFetch s).work = s.work := rfl
@[simp] theorem cipherFetch_ks (s : State) : (cipherFetch s).ks = s.ks := rfl
@[simp] theorem cipherFetch_curcmd (s : State) : (cipherFetch s).curcmd = s.curcmd := rfl
@[simp] theorem cipherFetch_phase (s : State) : (cipherFetch s).phase = .wr := rfl
@[simp] theorem cipherFetch_ci (s : State) : (cipherFetch s).ci = s.ci := rfl
@[simp] theorem cipherFetch_ibyte (s : State) : (cipherFetch s).ibyte = s.mem.read (sourceAddr s) := rfl
@[simp] theorem cipherFetch_mem (s : State) : (cipherFetch s).mem = s.mem := rfl
@[simp] theorem cipherFetch_base (s : State) : (cipherFetch s).base = s.base := rfl
@[simp] theorem cipherFetch_memBad (s : State) : (cipherFetch s).memBad = s.memBad := rfl
@[simp] theorem cipherFetch_memSilent (s : State) : (cipherFetch s).memSilent = s.memSilent := rfl
@[simp] theorem cipherFetch_schedule (s : State) : (cipherFetch s).schedule = s.schedule := rfl
@[simp] theorem cipherFetch_resp (s : State) : (cipherFetch s).resp = s.resp := rfl
@[simp] theorem cipherFetch_raced (s : State) : (cipherFetch s).raced = s.raced := rfl
@[simp] theorem cipherFetch_draws (s : State) : (cipherFetch s).draws = s.draws := rfl

/-! `cipherStore`: the write of the WR step (42_keystream_commands.md R161). -/

@[simp] theorem cipherStore_ie (s : State) : (cipherStore s).ie = s.ie := rfl
@[simp] theorem cipherStore_busy (s : State) : (cipherStore s).busy = s.busy := rfl
@[simp] theorem cipherStore_done (s : State) : (cipherStore s).done = s.done := rfl
@[simp] theorem cipherStore_err (s : State) : (cipherStore s).err = s.err := rfl
@[simp] theorem cipherStore_busywr (s : State) : (cipherStore s).busywr = s.busywr := rfl
@[simp] theorem cipherStore_errcode (s : State) : (cipherStore s).errcode = s.errcode := rfl
@[simp] theorem cipherStore_svalid (s : State) : (cipherStore s).svalid = s.svalid := rfl
@[simp] theorem cipherStore_cexh (s : State) : (cipherStore s).cexh = s.cexh := rfl
@[simp] theorem cipherStore_keyld (s : State) : (cipherStore s).keyld = s.keyld := rfl
@[simp] theorem cipherStore_nonceld (s : State) : (cipherStore s).nonceld = s.nonceld := rfl
@[simp] theorem cipherStore_counter (s : State) : (cipherStore s).counter = s.counter := rfl
@[simp] theorem cipherStore_key (s : State) : (cipherStore s).key = s.key := rfl
@[simp] theorem cipherStore_nonce (s : State) : (cipherStore s).nonce = s.nonce := rfl
@[simp] theorem cipherStore_src (s : State) : (cipherStore s).src = s.src := rfl
@[simp] theorem cipherStore_dst (s : State) : (cipherStore s).dst = s.dst := rfl
@[simp] theorem cipherStore_len (s : State) : (cipherStore s).len = s.len := rfl
@[simp] theorem cipherStore_dcap (s : State) : (cipherStore s).dcap = s.dcap := rfl
@[simp] theorem cipherStore_state (s : State) : (cipherStore s).state = s.state := rfl
@[simp] theorem cipherStore_work (s : State) : (cipherStore s).work = s.work := rfl
@[simp] theorem cipherStore_ks (s : State) : (cipherStore s).ks = s.ks := rfl
@[simp] theorem cipherStore_curcmd (s : State) : (cipherStore s).curcmd = s.curcmd := rfl
@[simp] theorem cipherStore_phase (s : State) : (cipherStore s).phase = s.phase := rfl
@[simp] theorem cipherStore_ci (s : State) : (cipherStore s).ci = s.ci + 1 := rfl
@[simp] theorem cipherStore_ibyte (s : State) : (cipherStore s).ibyte = s.ibyte := rfl
@[simp] theorem cipherStore_mem (s : State) : (cipherStore s).mem = s.mem.write (destAddr s) (outputByte s) := rfl
@[simp] theorem cipherStore_base (s : State) : (cipherStore s).base = s.base := rfl
@[simp] theorem cipherStore_memBad (s : State) : (cipherStore s).memBad = s.memBad := rfl
@[simp] theorem cipherStore_memSilent (s : State) : (cipherStore s).memSilent = s.memSilent := rfl
@[simp] theorem cipherStore_schedule (s : State) : (cipherStore s).schedule = s.schedule := rfl
@[simp] theorem cipherStore_resp (s : State) : (cipherStore s).resp = s.resp := rfl
@[simp] theorem cipherStore_raced (s : State) : (cipherStore s).raced = s.raced := rfl
@[simp] theorem cipherStore_draws (s : State) : (cipherStore s).draws = (if s.raced then s.draws + 1 else s.draws) := rfl

/-! `race`: a race (20_memory.md R71). -/

@[simp] theorem race_ie (s : State) : (race s).ie = s.ie := rfl
@[simp] theorem race_busy (s : State) : (race s).busy = s.busy := rfl
@[simp] theorem race_done (s : State) : (race s).done = s.done := rfl
@[simp] theorem race_err (s : State) : (race s).err = s.err := rfl
@[simp] theorem race_busywr (s : State) : (race s).busywr = s.busywr := rfl
@[simp] theorem race_errcode (s : State) : (race s).errcode = s.errcode := rfl
@[simp] theorem race_svalid (s : State) : (race s).svalid = s.svalid := rfl
@[simp] theorem race_cexh (s : State) : (race s).cexh = s.cexh := rfl
@[simp] theorem race_keyld (s : State) : (race s).keyld = s.keyld := rfl
@[simp] theorem race_nonceld (s : State) : (race s).nonceld = s.nonceld := rfl
@[simp] theorem race_counter (s : State) : (race s).counter = s.counter := rfl
@[simp] theorem race_key (s : State) : (race s).key = s.key := rfl
@[simp] theorem race_nonce (s : State) : (race s).nonce = s.nonce := rfl
@[simp] theorem race_src (s : State) : (race s).src = s.src := rfl
@[simp] theorem race_dst (s : State) : (race s).dst = s.dst := rfl
@[simp] theorem race_len (s : State) : (race s).len = s.len := rfl
@[simp] theorem race_dcap (s : State) : (race s).dcap = s.dcap := rfl
@[simp] theorem race_state (s : State) : (race s).state = s.state := rfl
@[simp] theorem race_work (s : State) : (race s).work = s.work := rfl
@[simp] theorem race_ks (s : State) : (race s).ks = s.ks := rfl
@[simp] theorem race_curcmd (s : State) : (race s).curcmd = s.curcmd := rfl
@[simp] theorem race_phase (s : State) : (race s).phase = s.phase := rfl
@[simp] theorem race_ci (s : State) : (race s).ci = s.ci := rfl
@[simp] theorem race_ibyte (s : State) : (race s).ibyte = s.ibyte := rfl
@[simp] theorem race_mem (s : State) : (race s).mem = scramble s.mem s.dst.toNat s.draws s.len.toNat := rfl
@[simp] theorem race_base (s : State) : (race s).base = s.base := rfl
@[simp] theorem race_memBad (s : State) : (race s).memBad = s.memBad := rfl
@[simp] theorem race_memSilent (s : State) : (race s).memSilent = s.memSilent := rfl
@[simp] theorem race_schedule (s : State) : (race s).schedule = s.schedule := rfl
@[simp] theorem race_resp (s : State) : (race s).resp = s.resp := rfl
@[simp] theorem race_raced (s : State) : (race s).raced = true := rfl
@[simp] theorem race_draws (s : State) : (race s).draws = s.draws + s.len.toNat := rfl

/-! `resetEngine`: the reset input (70_reset_and_hazards.md R240). -/

@[simp] theorem resetEngine_ie (s : State) : (resetEngine s).ie = State.reset.ie := rfl
@[simp] theorem resetEngine_busy (s : State) : (resetEngine s).busy = State.reset.busy := rfl
@[simp] theorem resetEngine_done (s : State) : (resetEngine s).done = State.reset.done := rfl
@[simp] theorem resetEngine_err (s : State) : (resetEngine s).err = State.reset.err := rfl
@[simp] theorem resetEngine_busywr (s : State) : (resetEngine s).busywr = State.reset.busywr := rfl
@[simp] theorem resetEngine_errcode (s : State) : (resetEngine s).errcode = State.reset.errcode := rfl
@[simp] theorem resetEngine_svalid (s : State) : (resetEngine s).svalid = State.reset.svalid := rfl
@[simp] theorem resetEngine_cexh (s : State) : (resetEngine s).cexh = State.reset.cexh := rfl
@[simp] theorem resetEngine_keyld (s : State) : (resetEngine s).keyld = State.reset.keyld := rfl
@[simp] theorem resetEngine_nonceld (s : State) : (resetEngine s).nonceld = State.reset.nonceld := rfl
@[simp] theorem resetEngine_counter (s : State) : (resetEngine s).counter = State.reset.counter := rfl
@[simp] theorem resetEngine_key (s : State) : (resetEngine s).key = State.reset.key := rfl
@[simp] theorem resetEngine_nonce (s : State) : (resetEngine s).nonce = State.reset.nonce := rfl
@[simp] theorem resetEngine_src (s : State) : (resetEngine s).src = State.reset.src := rfl
@[simp] theorem resetEngine_dst (s : State) : (resetEngine s).dst = State.reset.dst := rfl
@[simp] theorem resetEngine_len (s : State) : (resetEngine s).len = State.reset.len := rfl
@[simp] theorem resetEngine_dcap (s : State) : (resetEngine s).dcap = State.reset.dcap := rfl
@[simp] theorem resetEngine_state (s : State) : (resetEngine s).state = State.reset.state := rfl
@[simp] theorem resetEngine_work (s : State) : (resetEngine s).work = State.reset.work := rfl
@[simp] theorem resetEngine_ks (s : State) : (resetEngine s).ks = State.reset.ks := rfl
@[simp] theorem resetEngine_curcmd (s : State) : (resetEngine s).curcmd = State.reset.curcmd := rfl
@[simp] theorem resetEngine_phase (s : State) : (resetEngine s).phase = State.reset.phase := rfl
@[simp] theorem resetEngine_ci (s : State) : (resetEngine s).ci = State.reset.ci := rfl
@[simp] theorem resetEngine_ibyte (s : State) : (resetEngine s).ibyte = State.reset.ibyte := rfl
@[simp] theorem resetEngine_mem (s : State) : (resetEngine s).mem = s.mem := rfl
@[simp] theorem resetEngine_base (s : State) : (resetEngine s).base = s.base := rfl
@[simp] theorem resetEngine_memBad (s : State) : (resetEngine s).memBad = s.memBad := rfl
@[simp] theorem resetEngine_memSilent (s : State) : (resetEngine s).memSilent = s.memSilent := rfl
@[simp] theorem resetEngine_schedule (s : State) : (resetEngine s).schedule = s.schedule := rfl
@[simp] theorem resetEngine_resp (s : State) : (resetEngine s).resp = s.resp := rfl
@[simp] theorem resetEngine_raced (s : State) : (resetEngine s).raced = State.reset.raced := rfl
@[simp] theorem resetEngine_draws (s : State) : (resetEngine s).draws = s.draws := rfl

/-! `raise`: completion with an error (60_exceptions.md R205, R206). -/

/-- No error has code 0 (60_exceptions.md R201). -/
@[simp] theorem ErrorCode.code_ne_zero (e : ErrorCode) : e.code ≠ 0 := by cases e <;> decide

/-- `raise` writes BUSY, DONE, ERR, ERRCODE and PHASE and nothing else (60_exceptions.md R206). -/
theorem raise_eq (s : State) (e : ErrorCode) :
    raise s e = { s with busy := false, done := true, err := true, errcode := e.code, phase := .check } := by
  cases e <;> rfl

/-- Completion without an error leaves ERR and ERRCODE (60_exceptions.md R205). -/
theorem finish_zero (s : State) : finish s 0 = { s with busy := false, done := true, phase := .check } := rfl

@[simp] theorem raise_ie (s : State) (e : ErrorCode) : (raise s e).ie = s.ie := rfl
@[simp] theorem raise_busy (s : State) (e : ErrorCode) : (raise s e).busy = false := rfl
@[simp] theorem raise_done (s : State) (e : ErrorCode) : (raise s e).done = true := rfl
@[simp] theorem raise_err (s : State) (e : ErrorCode) : (raise s e).err = true := by rw [raise_eq]
@[simp] theorem raise_busywr (s : State) (e : ErrorCode) : (raise s e).busywr = s.busywr := rfl
@[simp] theorem raise_errcode (s : State) (e : ErrorCode) : (raise s e).errcode = e.code := by rw [raise_eq]
@[simp] theorem raise_svalid (s : State) (e : ErrorCode) : (raise s e).svalid = s.svalid := rfl
@[simp] theorem raise_cexh (s : State) (e : ErrorCode) : (raise s e).cexh = s.cexh := rfl
@[simp] theorem raise_keyld (s : State) (e : ErrorCode) : (raise s e).keyld = s.keyld := rfl
@[simp] theorem raise_nonceld (s : State) (e : ErrorCode) : (raise s e).nonceld = s.nonceld := rfl
@[simp] theorem raise_counter (s : State) (e : ErrorCode) : (raise s e).counter = s.counter := rfl
@[simp] theorem raise_key (s : State) (e : ErrorCode) : (raise s e).key = s.key := rfl
@[simp] theorem raise_nonce (s : State) (e : ErrorCode) : (raise s e).nonce = s.nonce := rfl
@[simp] theorem raise_src (s : State) (e : ErrorCode) : (raise s e).src = s.src := rfl
@[simp] theorem raise_dst (s : State) (e : ErrorCode) : (raise s e).dst = s.dst := rfl
@[simp] theorem raise_len (s : State) (e : ErrorCode) : (raise s e).len = s.len := rfl
@[simp] theorem raise_dcap (s : State) (e : ErrorCode) : (raise s e).dcap = s.dcap := rfl
@[simp] theorem raise_state (s : State) (e : ErrorCode) : (raise s e).state = s.state := rfl
@[simp] theorem raise_work (s : State) (e : ErrorCode) : (raise s e).work = s.work := rfl
@[simp] theorem raise_ks (s : State) (e : ErrorCode) : (raise s e).ks = s.ks := rfl
@[simp] theorem raise_curcmd (s : State) (e : ErrorCode) : (raise s e).curcmd = s.curcmd := rfl
@[simp] theorem raise_phase (s : State) (e : ErrorCode) : (raise s e).phase = .check := rfl
@[simp] theorem raise_ci (s : State) (e : ErrorCode) : (raise s e).ci = s.ci := rfl
@[simp] theorem raise_ibyte (s : State) (e : ErrorCode) : (raise s e).ibyte = s.ibyte := rfl
@[simp] theorem raise_mem (s : State) (e : ErrorCode) : (raise s e).mem = s.mem := rfl
@[simp] theorem raise_base (s : State) (e : ErrorCode) : (raise s e).base = s.base := rfl
@[simp] theorem raise_memBad (s : State) (e : ErrorCode) : (raise s e).memBad = s.memBad := rfl
@[simp] theorem raise_memSilent (s : State) (e : ErrorCode) : (raise s e).memSilent = s.memSilent := rfl
@[simp] theorem raise_schedule (s : State) (e : ErrorCode) : (raise s e).schedule = s.schedule := rfl
@[simp] theorem raise_resp (s : State) (e : ErrorCode) : (raise s e).resp = s.resp := rfl
@[simp] theorem raise_raced (s : State) (e : ErrorCode) : (raise s e).raced = s.raced := rfl
@[simp] theorem raise_draws (s : State) (e : ErrorCode) : (raise s e).draws = s.draws := rfl

end Sys2Proof.Machine
end

