-- ==== Sys2Proof/Laws/Exec.lean ====
section
/-! SUPPORT. What each command can do, said once: if it answers a next state, one of these cases holds. -/

namespace Sys2Proof.Machine

/-- The loaded checks pass exactly when every key and nonce word is loaded (R131, R153). -/
theorem loadedError_none (s : State) : loadedError s = none ↔ s.keyld = 0xFF ∧ s.nonceld = 0b111 := by
  unfold loadedError
  split
  · rename_i hk; exact ⟨nofun, fun h => absurd h.1 hk⟩
  · rename_i hk
    split
    · rename_i hn; exact ⟨nofun, fun h => absurd h.2 hn⟩
    · rename_i hn; exact ⟨fun _ => ⟨not_not.mp hk, not_not.mp hn⟩, fun _ => rfl⟩

/-- CIPHER's checks pass exactly when each of R153's conditions holds. -/
theorem cipherError_none (s : State) :
    cipherError s = none ↔ s.keyld = 0xFF ∧ s.nonceld = 0b111 ∧ s.len.toNat ≤ s.dcap.toNat ∧
      s.src.toNat + s.len.toNat ≤ 2 ^ 32 ∧ s.dst.toNat + s.len.toNat ≤ 2 ^ 32 ∧
      s.counter.toNat + chunkCount s ≤ 2 ^ 32 := by
  unfold cipherError
  cases h : loadedError s with
  | some e =>
    have : ¬(s.keyld = 0xFF ∧ s.nonceld = 0b111) := by rw [← loadedError_none, h]; simp
    simp only [reduceCtorEq, false_iff]
    intro ⟨hk, hn, _⟩
    exact this ⟨hk, hn⟩
  | none =>
    obtain ⟨hk, hn⟩ := (loadedError_none s).mp h
    simp only [hk, hn, true_and]
    split
    · simp; omega
    · split
      · simp; omega
      · split
        · simp; omega
        · simp; omega

/-- INIT completes with the first loaded error, or builds STATE (R131). -/
theorem execInit_cases {s t : State} (h : execInit s = .next t) :
    (∃ e, loadedError s = some e ∧ t = raise s e) ∨
      (loadedError s = none ∧ t = finish (captureState s) 0) := by
  unfold execInit at h
  split at h <;> cases h
  · exact .inl ⟨_, ‹_›, rfl⟩
  · exact .inr ⟨‹_›, rfl⟩

/-- BLOCK completes with NotInitialized, CounterOverflow, or one block (R150). -/
theorem execBlock_cases {dr : Nat} {inc : Bool} {s t : State} (h : execBlock dr inc s = .next t) :
    (s.svalid = false ∧ t = raise s .notInitialized) ∨
      (s.svalid = true ∧ s.cexh = true ∧ t = raise s .counterOverflow) ∨
      (s.svalid = true ∧ s.cexh = false ∧
        t = finish (if inc then counterIncrement (generateBlock s dr) else generateBlock s dr) 0) := by
  unfold execBlock at h
  split at h
  · cases h; exact .inl ⟨‹_›, rfl⟩
  · have hs : s.svalid = true := by simpa using ‹¬s.svalid = false›
    split at h
    · cases h; exact .inr (.inl ⟨hs, ‹_›, rfl⟩)
    · have hc : s.cexh = false := by simpa using ‹¬s.cexh = true›
      split at h <;> cases h <;> exact .inr (.inr ⟨hs, hc, by simp [*]⟩)

/-- A DMA step completes, ends with BusError, or does not happen (20_memory.md R62). -/
theorem dmaStep_cases {s d t : State} {k : AccessKind} {a : Nat} (h : dmaStep s k a d = .next t) :
    (dmaAnswer s k a = .ok ∧ t = d) ∨ (dmaAnswer s k a = .busError ∧ t = raise s .busError) ∨
      (dmaAnswer s k a = .never ∧ t = s) := by
  unfold dmaStep at h
  split at h <;> cases h
  · exact .inl ⟨‹_›, rfl⟩
  · exact .inr (.inl ⟨‹_›, rfl⟩)
  · exact .inr (.inr ⟨‹_›, rfl⟩)

/-- A DMA access below 2^32 never faults. -/
theorem dmaStep_answers (s d : State) (k : AccessKind) (a : Nat) (h : a < Config.addressSpace) :
    ∃ t, dmaStep s k a d = .next t := by
  have hne : dmaAnswer s k a ≠ .noSuchAddress := by
    unfold dmaAnswer
    rw [if_neg (Nat.not_le.mpr h)]
    split
    · decide
    · split <;> decide
  unfold dmaStep
  split
  · exact ⟨_, rfl⟩
  · exact ⟨_, rfl⟩
  · exact ⟨_, rfl⟩
  · exact absurd ‹_› hne

/-- CIPHER takes the step PHASE names (R161). -/
theorem execCipher_cases {s t : State} (h : execCipher s = .next t) :
    (s.phase = .check ∧ t = cipherCheck s) ∨ (s.phase = .gen ∧ t = cipherGen s) ∨
      (s.phase = .rd ∧ dmaStep s .read (sourceAddr s) (cipherFetch s) = .next t) ∨
      (s.phase = .wr ∧ dmaStep s .write (destAddr s) (cipherAdvance (cipherStore s)) = .next t) := by
  unfold execCipher at h
  split at h
  · cases h; exact .inl ⟨‹_›, rfl⟩
  · cases h; exact .inr (.inl ⟨‹_›, rfl⟩)
  · exact .inr (.inr (.inl ⟨‹_›, h⟩))
  · exact .inr (.inr (.inr ⟨‹_›, h⟩))

/-- CIPHER's CHECK step completes with the first failing check, completes at once for LEN = 0, or goes on to GEN (R161). -/
theorem cipherCheck_cases (s : State) :
    (∃ e, cipherError s = some e ∧ cipherCheck s = raise s e) ∨
      (cipherError s = none ∧ s.len = 0 ∧ cipherCheck s = finish (cipherStart s) 0) ∨
      (cipherError s = none ∧ s.len ≠ 0 ∧ cipherCheck s = setPhase (cipherStart s) .gen) := by
  unfold cipherCheck
  split
  · exact .inl ⟨_, ‹_›, rfl⟩
  · split
    · exact .inr (.inl ⟨‹_›, ‹_›, rfl⟩)
    · exact .inr (.inr ⟨‹_›, ‹_›, rfl⟩)

/-- After WR, CIPHER completes, starts a chunk, or goes on to the next byte (R161). -/
theorem cipherAdvance_cases (s : State) :
    (s.ci = s.len.toNat ∧ cipherAdvance s = finish s 0) ∨
      (s.ci ≠ s.len.toNat ∧ s.ci % 64 = 0 ∧ cipherAdvance s = setPhase s .gen) ∨
      (s.ci ≠ s.len.toNat ∧ s.ci % 64 ≠ 0 ∧ cipherAdvance s = setPhase s .rd) := by
  unfold cipherAdvance
  split
  · exact .inl ⟨‹_›, rfl⟩
  · split
    · exact .inr (.inl ⟨‹_›, ‹_›, rfl⟩)
    · exact .inr (.inr ⟨‹_›, ‹_›, rfl⟩)

@[simp] theorem exec_nop (s : State) : exec .nop s = .next (finish s 0) := rfl
@[simp] theorem exec_init (s : State) : exec .init s = execInit s := rfl
@[simp] theorem exec_block (dr : Nat) (inc : Bool) (s : State) : exec (.block dr inc) s = execBlock dr inc s := rfl
@[simp] theorem exec_cipher (s : State) : exec .cipher s = execCipher s := rfl
@[simp] theorem exec_zeroize (s : State) : exec .zeroize s = .next (finish (zeroizeState s) 0) := rfl

end Sys2Proof.Machine
end

