-- ==== Sys2Proof/Laws/Step.lean ====
section
/-! SUPPORT. What one step can do, said once: the engine's turn or another agent's move. -/

namespace Sys2Proof.Machine

/-! What the operands and the memory system say does not depend on the coming moves. -/

@[simp] theorem sourceAddr_setSchedule (s : State) (rest : List Move) : sourceAddr (setSchedule s rest) = sourceAddr s := rfl
@[simp] theorem destAddr_setSchedule (s : State) (rest : List Move) : destAddr (setSchedule s rest) = destAddr s := rfl
@[simp] theorem inSource_setSchedule (s : State) (rest : List Move) (a : Nat) :
    inSource (setSchedule s rest) a = inSource s a := rfl
@[simp] theorem inDest_setSchedule (s : State) (rest : List Move) (a : Nat) :
    inDest (setSchedule s rest) a = inDest s a := rfl
@[simp] theorem cipherRunning_setSchedule (s : State) (rest : List Move) :
    cipherRunning (setSchedule s rest) = cipherRunning s := rfl
@[simp] theorem dmaAnswer_setSchedule (s : State) (rest : List Move) (k : AccessKind) (a : Nat) :
    dmaAnswer (setSchedule s rest) k a = dmaAnswer s k a := rfl
@[simp] theorem loadedError_setSchedule (s : State) (rest : List Move) :
    loadedError (setSchedule s rest) = loadedError s := rfl
@[simp] theorem cipherError_setSchedule (s : State) (rest : List Move) :
    cipherError (setSchedule s rest) = cipherError s := rfl
@[simp] theorem outputByte_setSchedule (s : State) (rest : List Move) :
    outputByte (setSchedule s rest) = outputByte s := rfl

/-! The answers of the memory system (20_memory.md R62), in the terms the statements use. -/

theorem dmaAnswer_of_answered {s : State} {k : AccessKind} {a : Nat} (h : Answered s k a) : dmaAnswer s k a = .ok := by
  obtain ⟨ha, hs, hb⟩ := h
  unfold dmaAnswer memOk
  rw [if_neg (show ¬Config.addressSpace ≤ a from Nat.not_le.mpr ha), if_neg (by simpa using hs), if_pos (by simpa using hb)]

theorem dmaAnswer_of_error {s : State} {k : AccessKind} {a : Nat} (h : AnsweredByError s k a) :
    dmaAnswer s k a = .busError := by
  obtain ⟨ha, hs, hb⟩ := h
  unfold dmaAnswer memOk
  rw [if_neg (show ¬Config.addressSpace ≤ a from Nat.not_le.mpr ha), if_neg (by simpa using hs), if_neg (by simpa using hb)]

theorem dmaAnswer_of_unanswered {s : State} {k : AccessKind} {a : Nat} (h : Unanswered s k a) :
    dmaAnswer s k a = .never := by
  obtain ⟨ha, hs⟩ := h
  unfold dmaAnswer
  rw [if_neg (show ¬Config.addressSpace ≤ a from Nat.not_le.mpr ha), if_pos (by simpa using hs)]

theorem addr_lt_of_ok {s : State} {k : AccessKind} {a : Nat} (h : dmaAnswer s k a = .ok) : a < Config.addressSpace := by
  by_contra hlt
  unfold dmaAnswer at h
  rw [if_pos (Nat.not_lt.mp hlt)] at h
  cases h

/-- A command leaves memory, or is a CIPHER whose WR step is answered and stores its output byte (R61, R161). -/
theorem exec_mem {i : Instr} {s t : State} (h : exec i s = .next t) :
    t.mem = s.mem ∨ (i = .cipher ∧ s.phase = .wr ∧ dmaAnswer s .write (destAddr s) = .ok ∧
      t.mem = s.mem.write (destAddr s) (outputByte s)) := by
  cases i with
  | nop => cases h; exact .inl rfl
  | init => rcases execInit_cases h with ⟨_, _, rfl⟩ | ⟨_, rfl⟩ <;> exact .inl rfl
  | block dr inc =>
    rcases execBlock_cases h with ⟨_, rfl⟩ | ⟨_, _, rfl⟩ | ⟨_, _, rfl⟩
    · exact .inl rfl
    · exact .inl rfl
    · cases inc <;> exact .inl rfl
  | zeroize => cases h; exact .inl rfl
  | cipher =>
    rcases execCipher_cases h with ⟨_, rfl⟩ | ⟨_, rfl⟩ | ⟨_, h⟩ | ⟨hp, h⟩
    · rcases cipherCheck_cases s with ⟨_, _, h⟩ | ⟨_, _, h⟩ | ⟨_, _, h⟩ <;> rw [h] <;> exact .inl rfl
    · exact .inl (cipherGen_mem s)
    · rcases dmaStep_cases h with ⟨_, rfl⟩ | ⟨_, rfl⟩ | ⟨_, rfl⟩ <;> exact .inl rfl
    · rcases dmaStep_cases h with ⟨ha, rfl⟩ | ⟨_, rfl⟩ | ⟨_, rfl⟩
      · refine .inr ⟨rfl, hp, ha, ?_⟩
        rcases cipherAdvance_cases (cipherStore s) with ⟨_, h⟩ | ⟨_, _, h⟩ | ⟨_, _, h⟩ <;> rw [h] <;> rfl
      · exact .inl rfl
      · exact .inl rfl

/-- The engine's step is its turn on the state with the schedule moved on. -/
theorem step_engine {s : State} {rest : List Move} (h : EngineMoves s rest) :
    step s = engineTurn (setSchedule s rest) := by
  rcases h with ⟨h, rfl⟩ | h
  · have : s = { s with schedule := [] } := by rw [← h]
    unfold step
    rw [h]
    exact congrArg engineTurn this
  · unfold step
    rw [h]

/-- Another agent's step is its move on the state with the schedule moved on. -/
theorem step_environment {s : State} {m : Move} {rest : List Move} (h : s.schedule = m :: rest) (hm : m ≠ .engine) :
    step s = .next (environmentMove (setSchedule s rest) m) := by
  unfold step
  rw [h]
  cases m <;> first | exact absurd rfl hm | rfl

/-- A step is the engine's turn or one move of another agent (00_scope.md R7). -/
theorem step_cases {s t : State} (h : step s = .next t) :
    (∃ rest, EngineMoves s rest ∧ engineTurn (setSchedule s rest) = .next t) ∨
      (∃ m rest, s.schedule = m :: rest ∧ m ≠ .engine ∧ t = environmentMove (setSchedule s rest) m) := by
  rcases hs : s.schedule with _ | ⟨m, rest⟩
  · have he : EngineMoves s [] := .inl ⟨hs, rfl⟩
    exact .inl ⟨[], he, step_engine he ▸ h⟩
  · by_cases hm : m = .engine
    · have he : EngineMoves s rest := .inr (hm ▸ hs)
      exact .inl ⟨rest, he, step_engine he ▸ h⟩
    · rw [step_environment hs hm] at h
      injection h with h
      exact .inr ⟨m, rest, rfl, hm, h.symm⟩

/-- The engine's turn: nothing while idle, the dispatch of CURCMD at CHECK, a CIPHER step otherwise (R133, R161, R205). -/
theorem engineTurn_cases {s t : State} (h : engineTurn s = .next t) :
    (s.busy = false ∧ t = s) ∨
      (s.busy = true ∧ s.phase = .check ∧ ∃ i, decode s.curcmd = .ok i ∧ exec i s = .next t) ∨
      (s.busy = true ∧ s.phase = .check ∧ (∃ e, decode s.curcmd = .error e) ∧ t = raise s .illegalCommand) ∨
      (s.busy = true ∧ s.phase ≠ .check ∧ execCipher s = .next t) := by
  unfold engineTurn at h
  split at h
  · rename_i hb
    split at h
    · rename_i hp
      unfold checkStep at h
      split at h
      · exact .inr (.inl ⟨hb, hp, _, ‹_›, h⟩)
      · injection h with h
        exact .inr (.inr (.inl ⟨hb, hp, ⟨_, ‹_›⟩, h.symm⟩))
    all_goals
      rename_i hp
      exact .inr (.inr (.inr ⟨hb, by rw [hp]; decide, h⟩))
  · rename_i hb
    injection h with h
    exact .inl ⟨by simpa using hb, h.symm⟩

/-- A register write is dropped, or has its effect (10_state.md R22). -/
theorem regWrite_cases (s : State) (r : Reg) (v : Word) :
    (s.busy = true ∧ r.writeProtected = true ∧ regWrite s r v = dropWrite s) ∨
      ((s.busy = false ∨ r.writeProtected = false) ∧ regWrite s r v = regEffect s v r) := by
  unfold regWrite
  cases s.busy <;> cases r.writeProtected <;> simp

/-- A bus write outside the window, one that is not defined, or a register write (10_state.md R20, R21). -/
theorem busWrite_cases (s : State) (addr bits : Nat) (v : Word) :
    (inWindow s addr = false ∧ busWrite s addr bits v = respond s .undecoded) ∨
      (inWindow s addr = true ∧ definedAccess addr bits = false ∧ busWrite s addr bits v = respond s .busError) ∨
      (inWindow s addr = true ∧ definedAccess addr bits = true ∧
        busWrite s addr bits v = respond (regWrite s (regAt (addr - s.base)) v) .ack) := by
  unfold busWrite
  cases inWindow s addr <;> cases definedAccess addr bits <;> simp

/-- A bus read changes nothing but the response, and the count of draws (10_state.md R37). -/
theorem busRead_frame (s : State) (addr bits : Nat) :
    ∃ r n, busRead s addr bits = { s with resp := r, draws := n } := by
  unfold busRead regRead
  split
  · exact ⟨_, s.draws, rfl⟩
  · split
    · exact ⟨_, s.draws, rfl⟩
    · split
      · exact ⟨_, _, rfl⟩
      · exact ⟨_, s.draws, rfl⟩

/-- A host store writes the byte, and races when it meets a buffer of a running CIPHER (20_memory.md R69, R71). -/
theorem hostStore_cases (s : State) (a : BitVec 32) (v : Byte) :
    (cipherRunning s = true ∧ (inSource s a.toNat = true ∨ inDest s a.toNat = true) ∧
        hostStore s a v = race (respond (storeByte s a.toNat v) .ack)) ∨
      ((cipherRunning s = false ∨ (inSource s a.toNat = false ∧ inDest s a.toNat = false)) ∧
        hostStore s a v = respond (storeByte s a.toNat v) .ack) := by
  unfold hostStore
  cases cipherRunning s <;> cases inSource s a.toNat <;> cases inDest s a.toNat <;> simp

/-- A host load gives the byte, or a draw and a race for an output byte of a running CIPHER (20_memory.md R69, R71). -/
theorem hostLoad_cases (s : State) (a : BitVec 32) :
    (cipherRunning s = true ∧ inDest s a.toNat = true ∧
        hostLoad s a = race (respond (countDraw s) (.byte (Config.draw8 s.draws)))) ∨
      ((cipherRunning s = false ∨ inDest s a.toNat = false) ∧
        hostLoad s a = respond s (.byte (s.mem.read a.toNat))) := by
  unfold hostLoad
  cases cipherRunning s <;> cases inDest s a.toNat <;> simp

end Sys2Proof.Machine
end

