-- ==== Sys2Proof/Laws/HostPort.lean ====
section
/-! SUPPORT. What an access to the register window does, said once (10_state.md R20 to R37). -/

namespace Sys2Proof.Machine

/-- KEY i stands at offset 0x020 + 4i (R20). -/
theorem regAt_key (i : Nat) (hi : i < 8) : regAt (0x020 + 4 * i) = .key ⟨i, hi⟩ := by
  interval_cases i <;> rfl

/-- NONCE i stands at offset 0x040 + 4i (R20). -/
theorem regAt_nonce (i : Nat) (hi : i < 3) : regAt (0x040 + 4 * i) = .nonce ⟨i, hi⟩ := by
  interval_cases i <;> rfl

/-- KS j stands at offset 0x100 + 4j (R20). -/
theorem regAt_ks (j : Nat) (hj : j < 16) : regAt (0x100 + 4 * j) = .ks ⟨j, hj⟩ := by
  interval_cases j <;> rfl

/-- The reserved offsets (R37). -/
theorem regAt_reserved {o : Nat} (h : ReservedOffset o) : regAt o = .reserved := by
  unfold ReservedOffset at h
  unfold regAt
  iterate 7 rw [if_neg (by omega)]
  rw [dif_neg (by omega), dif_neg (by omega)]
  iterate 4 rw [if_neg (by omega)]
  exact dif_neg (by omega)

/-- Every register is found at its offset (R20). -/
theorem regAt_offset (r : Reg) : regAt r.offset = r := by
  cases r with
  | key i => exact regAt_key i.val i.isLt
  | nonce i => exact regAt_nonce i.val i.isLt
  | ks j => exact regAt_ks j.val j.isLt
  | _ => rfl

/-- The registers at the protected offsets are the write-protected ones (R22). -/
theorem writeProtected_of_offset {o : Nat} (h4 : o % 4 = 0) (h : ProtectedOffset o) : (regAt o).writeProtected = true := by
  unfold ProtectedOffset at h
  rcases h with rfl | rfl | ⟨h1, h2⟩ | ⟨h1, h2⟩
  · rfl
  · rfl
  · interval_cases o <;> rfl
  · interval_cases o <;> first | rfl | exact absurd h4 (by decide)

/-- The registers at the other offsets are not write-protected (R22). -/
theorem not_writeProtected_of_offset {o : Nat} (h : ¬ProtectedOffset o) : (regAt o).writeProtected = false := by
  have hout : o ≠ 12 ∧ o ≠ 20 ∧ ¬(32 ≤ o ∧ o < 64) ∧ ¬(64 ≤ o ∧ o < 76) ∧ o ≠ 80 ∧ o ≠ 84 ∧ o ≠ 88 ∧ o ≠ 92 := by
    unfold ProtectedOffset at h
    omega
  obtain ⟨hcmd, hcounter, hkey, hnonce, hsrc, hdst, hlen, hdcap⟩ := hout
  unfold regAt
  rw [if_neg hcmd, if_neg hcounter, dif_neg hkey, dif_neg hnonce, if_neg hsrc, if_neg hdst, if_neg hlen, if_neg hdcap]
  repeat (first | rfl | split)

/-- A write that is not dropped has the register's effect (R22). -/
theorem regWrite_effect {s : State} {r : Reg} {v : Word} (h : s.busy = false ∨ r.writeProtected = false) :
    regWrite s r v = regEffect s v r := by
  unfold regWrite
  rcases h with h | h <;> simp [h]

/-- A write to a write-protected register while BUSY = 1 is dropped (R22). -/
theorem regWrite_dropped {s : State} {r : Reg} {v : Word} (hb : s.busy = true) (hr : r.writeProtected = true) :
    regWrite s r v = dropWrite s := by
  unfold regWrite
  simp [hb, hr]

/-- A write to a register that cannot be written changes nothing (R22, R37). -/
theorem regWrite_unwritable {s : State} {o : Nat} {v : Word} (h4 : o % 4 = 0) (h : UnwritableOffset o) :
    regWrite s (regAt o) v = s := by
  have hnop : ∀ r : Reg, (r = .id ∨ r = .loaded ∨ r = .sctr ∨ r = .reserved ∨ ∃ j, r = .ks j) → regWrite s r v = s := by
    rintro r (rfl | rfl | rfl | rfl | ⟨j, rfl⟩) <;> exact regWrite_effect (.inr rfl)
  apply hnop
  rcases h with rfl | rfl | rfl | ⟨h1, h2⟩ | h
  · exact .inl rfl
  · exact .inr (.inl rfl)
  · exact .inr (.inr (.inl rfl))
  · have hks := regAt_ks ((o - 0x100) / 4) (by omega)
    rw [show 0x100 + 4 * ((o - 0x100) / 4) = o by omega] at hks
    exact .inr (.inr (.inr (.inr ⟨_, hks⟩)))
  · exact .inr (.inr (.inr (.inl (regAt_reserved h))))

/-- A read that is not a draw returns the register's value (R31, R36). -/
theorem regRead_value {s : State} {r : Reg} (h : s.busy = false ∨ r.drawnWhileBusy = false) :
    regRead s r = respond s (.data (regValue s r)) := by
  unfold regRead
  rcases h with h | h <;> simp [h]

/-- A read of KS or SCTR while BUSY = 1 is a draw (R31, R36). -/
theorem regRead_drawn {s : State} {r : Reg} (hb : s.busy = true) (hr : r.drawnWhileBusy = true) :
    regRead s r = respond (countDraw s) (.data (Config.draw32 s.draws)) := by
  unfold regRead
  simp [hb, hr]

theorem inWindow_offset {s : State} {o : Nat} (ho : o < 0x1000) : inWindow s (s.base + o) = true := by
  unfold inWindow Config.windowSize
  simp only [Bool.and_eq_true, decide_eq_true_eq]
  omega

theorem definedAccess_offset {s : State} {o : Nat} (hb : s.base % 4096 = 0) (h4 : o % 4 = 0) :
    definedAccess (s.base + o) 32 = true := by
  unfold definedAccess
  simp only [BEq.rfl, Bool.true_and, beq_iff_eq]
  omega

/-- A bus read at the offset of a register, when it is no draw, returns the register's value (R20, R21). -/
theorem busRead_offset {s : State} {r : Reg} (hb : s.base % 4096 = 0) (hr : s.busy = false ∨ r.drawnWhileBusy = false) :
    busRead s (s.base + r.offset) 32 = respond s (.data (regValue s r)) := by
  have ho : r.offset % 4 = 0 ∧ r.offset < 0x1000 := by
    cases r <;> first | decide | (simp only [Reg.offset]; omega)
  unfold busRead
  rw [inWindow_offset ho.2, definedAccess_offset hb ho.1, Nat.add_sub_cancel_left, regAt_offset]
  exact regRead_value hr

/-- The step that is a defined host write (R20, R21). -/
theorem step_hostWrites {s : State} {o : Nat} {v : Word} {rest : List Move} (h : HostWrites s o v rest) :
    step s = .next (respond (regWrite (setSchedule s rest) (regAt o) v) .ack) := by
  obtain ⟨hb, h4, ho, hs⟩ := h
  have hw : inWindow (setSchedule s rest) (s.base + o) = true := inWindow_offset (s := s) ho
  rw [step_environment hs nofun]
  simp only [environmentMove, busWrite, hw, definedAccess_offset hb h4, Bool.not_true, Bool.false_eq_true, if_false,
    setSchedule_base, Nat.add_sub_cancel_left]

/-- The step that is a defined host read (R20, R21). -/
theorem step_hostReads {s : State} {o : Nat} {rest : List Move} (h : HostReads s o rest) :
    step s = .next (regRead (setSchedule s rest) (regAt o)) := by
  obtain ⟨hb, h4, ho, hs⟩ := h
  have hw : inWindow (setSchedule s rest) (s.base + o) = true := inWindow_offset (s := s) ho
  rw [step_environment hs nofun]
  simp only [environmentMove, busRead, hw, definedAccess_offset hb h4, Bool.not_true, Bool.false_eq_true, if_false,
    setSchedule_base, Nat.add_sub_cancel_left]

end Sys2Proof.Machine
end

