-- ==== Sys2Proof/Machine/HostProgram.lean ====
section
/-! DEFINITION. Host programs (30_encoding.md R88): their statements, the bus transactions each makes, and a program running beside
the machine. A transaction is one move of the host, made by one step of the machine. -/

namespace Sys2Proof.Machine

/-- A statement of a host program (R88). -/
inductive HostStatement where
  /-- `WR <REG>, <value>` -/
  | wr (r : Reg) (v : Word)
  /-- `WR CMD, <command>` -/
  | wrCmd (i : Instr)
  /-- `RD <REG> -> <name>` -/
  | rd (r : Reg) (name : String)
  /-- `POLL` -/
  | poll
  /-- `MEMWR <addr>, <bytes>` -/
  | memwr (a : BitVec 32) (bytes : List Byte)
  /-- `MEMRD <addr>, <n>` -/
  | memrd (a : BitVec 32) (n : Nat)
  /-- `; text` -/
  | comment (text : String)
  deriving DecidableEq, Repr

/-- The first transaction of a statement, with the window at `base`; none for a comment and for no bytes (R88). A host access of
memory is one byte (notes/assumptions/10.md). -/
def HostStatement.transaction (base : Nat) : HostStatement → Option Move
  | .wr r v => some (.busWrite (base + r.offset) 32 v)
  | .wrCmd i => some (.busWrite (base + Reg.cmd.offset) 32 (encode i))
  | .rd r _ => some (.busRead (base + r.offset) 32)
  | .poll => some (.busRead (base + Reg.status.offset) 32)
  | .memwr _ [] => none
  | .memwr a (b :: _) => some (.hostStore a b)
  | .memrd _ 0 => none
  | .memrd a (_ + 1) => some (.hostLoad a)
  | .comment _ => none

/-- The exit test of POLL, `s[0] == 0`, on what `RD STATUS -> s` got back (R88). -/
def pollEnds : Response → Bool
  | .data w => !w.getLsbD 0
  | .none | .ack | .byte _ | .busError | .undecoded => false

/-- What is left of a statement once its first transaction got `resp` back (R88): POLL itself until its exit test holds, the other bytes
of MEMWR and MEMRD. DESIGN CHOICE: bytes that would run past address 0xFFFFFFFF go on at address 0, where the spec is silent
(notes/assumptions/16.md). -/
def HostStatement.remaining (resp : Response) : HostStatement → List HostStatement
  | .poll => if pollEnds resp then [] else [.poll]
  | .memwr a (_ :: bytes) => [.memwr (a + 1) bytes]
  | .memrd a (n + 1) => [.memrd (a + 1) n]
  | .memwr _ [] | .memrd _ 0 | .wr _ _ | .wrCmd _ | .rd _ _ | .comment _ => []

/-- The result a statement names: RD names the word its read returned (R88). -/
def HostStatement.result (resp : Response) : HostStatement → List (String × Word)
  | .rd _ name =>
    match resp with
    | .data w => [(name, w)]
    | .none | .ack | .byte _ | .busError | .undecoded => []
  | .wr _ _ | .wrCmd _ | .poll | .memwr _ _ | .memrd _ _ | .comment _ => []

/-- A host program under way. -/
structure HostProgram where
  /-- The statements still to run, first one first; a POLL that goes on stands first -/
  todo : List HostStatement
  /-- The results named so far, oldest first -/
  results : List (String × Word)
  /-- The transactions made so far and what each got back, oldest first: the encoding of the program (R88) -/
  trace : List (Move × Response)
  deriving DecidableEq, Repr

/-- A program none of whose statements has run. -/
def HostProgram.start (todo : List HostStatement) : HostProgram := { todo := todo, results := [], trace := [] }

/-- The first transaction of a list of statements, the statement that makes it, and those after it. -/
def nextTransaction (base : Nat) : List HostStatement → Option (Move × HostStatement × List HostStatement)
  | [] => none
  | st :: rest =>
    match st.transaction base with
    | some m => some (m, st, rest)
    | none => nextTransaction base rest

/-- The program after statement `st`, with `rest` after it, made transaction `m` and got `resp` back. -/
def HostProgram.advance (p : HostProgram) (m : Move) (st : HostStatement) (rest : List HostStatement) (resp : Response) :
    HostProgram where
  todo := st.remaining resp ++ rest
  results := p.results ++ st.result resp
  trace := p.trace ++ [(m, resp)]

/-- The host's turn: the next transaction of its program, as one step of the machine; none when the program has ended. -/
def hostTurn (p : HostProgram) (s : State) : Host.Outcome (HostProgram × State) Fault Refusal :=
  match nextTransaction s.base p.todo with
  | none => .next ({ p with todo := [] }, s)
  | some (m, st, rest) =>
    match step { s with schedule := m :: s.schedule } with
    | .next t => .next (p.advance m st rest t.resp, t)
    | .fault f => .fault f
    | .refused r => .refused r

/-- A step of the engine or of another agent than the program, which makes no transaction of it (20_memory.md R69). -/
def othersTurn (p : HostProgram) (s : State) : Host.Outcome (HostProgram × State) Fault Refusal :=
  match step s with
  | .next t => .next (p, t)
  | .fault f => .fault f
  | .refused r => .refused r

/-- A program running beside the machine in one interleaving of atomic steps (20_memory.md R69): `true` is the host's turn. -/
def HostProgram.run : List Bool → HostProgram → State → Host.Outcome (HostProgram × State) Fault Refusal
  | [], p, s => .next (p, s)
  | host :: turns, p, s =>
    match (if host then hostTurn p s else othersTurn p s) with
    | .next (q, t) => HostProgram.run turns q t
    | .fault f => .fault f
    | .refused r => .refused r

end Sys2Proof.Machine
end

