-- ==== Sys2Proof/Laws/HostProgram.lean ====
section
/-! SUPPORT. What one turn of a host program does, said once (30_encoding.md R88). -/

namespace Sys2Proof.Machine

/-- The exit test of POLL on a STATUS word is BUSY = 0 (R26, R88). -/
@[simp] theorem pollEnds_statusWord (s : State) : pollEnds (.data (statusWord s)) = !s.busy := by
  show (!(statusWord s).getLsbD 0) = !s.busy
  unfold statusWord
  rw [BitVec.getLsbD_append]
  simp

theorem transaction_ne_engine {base : Nat} {st : HostStatement} {m : Move} (h : st.transaction base = some m) :
    m ≠ .engine := by
  rintro rfl
  unfold HostStatement.transaction at h
  split at h <;> cases h

theorem nextTransaction_ne_engine {base : Nat} {todo rest : List HostStatement} {m : Move} {st : HostStatement}
    (h : nextTransaction base todo = some (m, st, rest)) : m ≠ .engine := by
  induction todo with
  | nil => cases h
  | cons st' todo ih =>
    unfold nextTransaction at h
    split at h
    · next hm => cases h; exact transaction_ne_engine hm
    · exact ih h

/-- The host's turn makes the next transaction of the program, and nothing once the program has none. It always completes. -/
theorem hostTurn_cases (p : HostProgram) (s : State) :
    (nextTransaction s.base p.todo = none ∧ hostTurn p s = .next ({ p with todo := [] }, s)) ∨
      ∃ m st rest, nextTransaction s.base p.todo = some (m, st, rest) ∧
        hostTurn p s = .next (p.advance m st rest (environmentMove s m).resp, environmentMove s m) := by
  unfold hostTurn
  split
  · next h => exact .inl ⟨h, rfl⟩
  · next m st rest h =>
    rw [step_environment (rest := s.schedule) rfl (nextTransaction_ne_engine h)]
    exact .inr ⟨m, st, rest, h, rfl⟩

/-- The turn of a program whose first statement makes transaction `m`. -/
theorem hostTurn_first {p : HostProgram} {s : State} {st : HostStatement} {rest : List HostStatement} {m : Move}
    (h : p.todo = st :: rest) (hm : st.transaction s.base = some m) :
    hostTurn p s = .next (p.advance m st rest (environmentMove s m).resp, environmentMove s m) := by
  have hnext : nextTransaction s.base p.todo = some (m, st, rest) := by rw [h, nextTransaction, hm]
  rcases hostTurn_cases p s with ⟨hn, _⟩ | ⟨m', st', rest', hn, he⟩ <;> rw [hnext] at hn <;> cases hn
  exact he

/-- POLL reads STATUS, and goes on exactly while the read returns BUSY = 1 (R88). -/
theorem hostTurn_poll {p : HostProgram} {s : State} {rest : List HostStatement} (hb : s.base % 4096 = 0)
    (h : p.todo = .poll :: rest) :
    hostTurn p s = .next ({ p with
      todo := if s.busy then .poll :: rest else rest
      trace := p.trace ++ [(.busRead (s.base + Reg.status.offset) 32, .data (statusWord s))] },
      respond s (.data (statusWord s))) := by
  rw [hostTurn_first h rfl]
  simp only [environmentMove, busRead_offset (r := .status) hb (.inr rfl)]
  cases hbusy : s.busy <;>
    simp [HostProgram.advance, HostStatement.remaining, HostStatement.result, respond, regValue, hbusy]

/-- RD of a register, when it is no draw, names the register's value (R88). -/
theorem hostTurn_rd {p : HostProgram} {s : State} {r : Reg} {name : String} {rest : List HostStatement}
    (hb : s.base % 4096 = 0) (hr : s.busy = false ∨ r.drawnWhileBusy = false) (h : p.todo = .rd r name :: rest) :
    hostTurn p s = .next ({
      todo := rest
      results := p.results ++ [(name, regValue s r)]
      trace := p.trace ++ [(.busRead (s.base + r.offset) 32, .data (regValue s r))] },
      respond s (.data (regValue s r))) := by
  rw [hostTurn_first h rfl]
  simp only [environmentMove, busRead_offset hb hr]
  rfl

end Sys2Proof.Machine
end

