-- ==== Sys2Proof/Laws/Memory.lean ====
section
/-! SUPPORT. System memory: a read after a write, and that every memory operation keeps the canonical form. -/

namespace Sys2Proof.Machine

@[simp] theorem Memory.read_nil (a : Nat) : Memory.read [] a = Config.unlistedByte := rfl

theorem Memory.read_cons (c : Host.Cell) (m : Memory) (a : Nat) :
    Memory.read (c :: m) a = if c.1 = a then c.2 else Memory.read m a := rfl

/-- A byte below every listed address is unlisted. -/
theorem Memory.read_of_lt (m : Memory) (a : Nat) (h : ∀ c ∈ m, a < c.1) :
    Memory.read m a = Config.unlistedByte := by
  induction m with
  | nil => rfl
  | cons c m ih =>
    have hc := h c (by simp)
    rw [Memory.read_cons, if_neg (by omega)]
    exact ih fun d hd => h d (by simp [hd])

theorem Memory.read_put_other (m : Memory) (a b : Nat) (v : Byte) (h : b ≠ a) :
    Memory.read (Memory.put m a v) b = Memory.read m b := by
  unfold Memory.put
  split
  · rfl
  · rw [Memory.read_cons, if_neg (Ne.symm h)]

theorem Memory.read_put_same (m : Memory) (a : Nat) (v : Byte) (h : ∀ c ∈ m, a < c.1) :
    Memory.read (Memory.put m a v) a = v := by
  unfold Memory.put
  split
  · rename_i hv; rw [Memory.read_of_lt m a h, hv]
  · rw [Memory.read_cons, if_pos rfl]

/-- A write leaves every other byte alone. -/
theorem Memory.read_write_other (m : Memory) (a b : Nat) (v : Byte) (h : b ≠ a) :
    Memory.read (Memory.write m a v) b = Memory.read m b := by
  induction m with
  | nil => exact Memory.read_put_other [] a b v h
  | cons c m ih =>
    unfold Memory.write
    split
    · exact Memory.read_put_other _ a b v h
    · split
      · rename_i hc; rw [Memory.read_put_other m a b v h, Memory.read_cons, if_neg (by omega)]
      · rw [Memory.read_cons, Memory.read_cons, ih]

/-- In canonical memory a read gives the byte last written. -/
theorem Memory.read_write_same (m : Memory) (a : Nat) (v : Byte) (h : m.wf) :
    Memory.read (Memory.write m a v) a = v := by
  induction m with
  | nil => exact Memory.read_put_same [] a v (by simp)
  | cons c m ih =>
    obtain ⟨hp, hv⟩ := h
    rw [List.pairwise_cons] at hp
    unfold Memory.write
    split
    · rename_i hlt
      refine Memory.read_put_same _ a v fun d hd => ?_
      rcases List.mem_cons.mp hd with rfl | hd
      · exact hlt
      · exact Nat.lt_trans hlt (hp.1 d hd)
    · split
      · rename_i hc; exact Memory.read_put_same m a v fun d hd => hc ▸ hp.1 d hd
      · rename_i hc
        rw [Memory.read_cons, if_neg (Ne.symm hc)]
        exact ih ⟨hp.2, fun d hd => hv d (by simp [hd])⟩

/-- Writing adds no address but the one written. -/
theorem Memory.mem_write (m : Memory) (a : Nat) (v : Byte) (c : Host.Cell) (h : c ∈ Memory.write m a v) :
    c ∈ m ∨ (c = (a, v) ∧ v ≠ Config.unlistedByte) := by
  have hput : ∀ m' : Memory, c ∈ Memory.put m' a v → c ∈ m' ∨ (c = (a, v) ∧ v ≠ Config.unlistedByte) := by
    intro m' hm
    unfold Memory.put at hm
    split at hm
    · exact .inl hm
    · rename_i hv
      rcases List.mem_cons.mp hm with h | h
      · exact .inr ⟨h, hv⟩
      · exact .inl h
  induction m with
  | nil => exact hput [] h
  | cons d m ih =>
    unfold Memory.write at h
    split at h
    · exact hput _ h
    · split at h
      · exact (hput _ h).imp_left fun h => List.mem_cons_of_mem _ h
      · rcases List.mem_cons.mp h with rfl | h
        · exact .inl List.mem_cons_self
        · exact (ih h).imp_left fun h => List.mem_cons_of_mem _ h

theorem Memory.wf_nil : Memory.wf [] := ⟨.nil, by simp⟩

theorem Memory.pairwise_put (m : Memory) (a : Nat) (v : Byte) (hm : List.Pairwise (fun c d => c.1 < d.1) m)
    (h : ∀ c ∈ m, a < c.1) : List.Pairwise (fun c d => c.1 < d.1) (Memory.put m a v) := by
  unfold Memory.put
  split
  · exact hm
  · exact List.pairwise_cons.mpr ⟨h, hm⟩

theorem Memory.pairwise_write (m : Memory) (a : Nat) (v : Byte) (h : List.Pairwise (fun c d => c.1 < d.1) m) :
    List.Pairwise (fun c d => c.1 < d.1) (Memory.write m a v) := by
  induction m with
  | nil => exact Memory.pairwise_put [] a v .nil (by simp)
  | cons c m ih =>
    have hp := List.pairwise_cons.mp h
    unfold Memory.write
    split
    · rename_i hlt
      refine Memory.pairwise_put _ a v h fun d hd => ?_
      rcases List.mem_cons.mp hd with rfl | hd
      · exact hlt
      · exact Nat.lt_trans hlt (hp.1 d hd)
    · split
      · rename_i hc; exact Memory.pairwise_put m a v hp.2 fun d hd => hc ▸ hp.1 d hd
      · rename_i hlt hc
        refine List.pairwise_cons.mpr ⟨fun d hd => ?_, ih hp.2⟩
        rcases Memory.mem_write m a v d hd with hd | ⟨rfl, -⟩
        · exact hp.1 d hd
        · show c.1 < a; omega

/-- A write to an existing address keeps the canonical form. -/
theorem Memory.write_wf (m : Memory) (a : Nat) (v : Byte) (ha : a < Config.addressSpace) (h : m.wf) :
    (Memory.write m a v).wf := by
  refine ⟨Memory.pairwise_write m a v h.1, fun c hc => ?_⟩
  rcases Memory.mem_write m a v c hc with hc | ⟨rfl, hv⟩
  · exact h.2 c hc
  · exact ⟨hv, ha⟩

/-- The draws of a race keep the canonical form. -/
theorem scramble_wf (m : Memory) (dst d n : Nat) (h : m.wf) : (scramble m dst d n).wf := by
  induction n with
  | zero => exact h
  | succ n ih =>
    unfold scramble
    split
    · rename_i ha; exact Memory.write_wf _ _ _ ha ih
    · exact ih

/-- The draws of a race leave every byte outside the bytes drawn alone. -/
theorem scramble_read_other (m : Memory) (dst d n a : Nat) (h : ¬(dst ≤ a ∧ a < dst + n)) :
    Memory.read (scramble m dst d n) a = Memory.read m a := by
  induction n with
  | zero => rfl
  | succ n ih =>
    unfold scramble
    split
    · rw [Memory.read_write_other _ _ _ _ (by omega), ih (by omega)]
    · exact ih (by omega)

/-- Each byte drawn is its own draw after a race. -/
theorem scramble_read_drawn (m : Memory) (dst d n i : Nat) (h : m.wf) (hi : i < n)
    (ha : dst + i < Config.addressSpace) :
    Memory.read (scramble m dst d n) (dst + i) = Config.draw8 (d + i) := by
  induction n with
  | zero => omega
  | succ n ih =>
    unfold scramble
    by_cases hin : i = n
    · subst hin
      rw [if_pos ha, Memory.read_write_same _ _ _ (scramble_wf m dst d i h)]
    · have hi' : i < n := by omega
      split
      · rw [Memory.read_write_other _ _ _ _ (by omega), ih hi']
      · exact ih hi'

/-- No host access and no reset puts memory out of its canonical form. -/
theorem environmentMove_mem_wf (s : State) (m : Move) (h : s.mem.wf) : (environmentMove s m).mem.wf := by
  cases m with
  | engine => exact h
  | busRead addr bits =>
    simp only [environmentMove, busRead]
    repeat (first | split | exact h | unfold regRead)
  | busWrite addr bits v =>
    simp only [environmentMove, busWrite]
    split
    · exact h
    · split
      · exact h
      · unfold regWrite
        split
        · exact h
        · cases regAt (addr - s.base) <;> exact h
  | hostLoad a =>
    simp only [environmentMove, hostLoad]
    split
    · exact scramble_wf _ _ _ _ h
    · exact h
  | hostStore a v =>
    have hw : (s.mem.write a.toNat v).wf := Memory.write_wf _ _ _ a.isLt h
    simp only [environmentMove, hostStore]
    split
    · exact scramble_wf _ _ _ _ hw
    · exact hw
  | memoryAnswers silent => exact h
  | reset => exact h

end Sys2Proof.Machine
end

