-- ==== Sys2Proof/Laws/PerInstr.lean ====
section
/-! SUPPORT. One lemma per command: the OP field of its word is the OP of 30_encoding.md R83. -/

namespace Sys2Proof

/-- The OP values of 30_encoding.md R83. -/
def opValue : Instr → Nat
  | .nop => 0x0
  | .init => 0x1
  | .block _ _ => 0x2
  | .cipher => 0x3
  | .zeroize => 0x4

namespace Laws.OpField

/-- The OP field of the command's word is its OP value. -/
def Statement (i : Instr) : Prop := i.WellFormed → (fieldOp (encode i)).toNat = opValue i

theorem nop : Statement .nop := fun _ => by decide

theorem init : Statement .init := fun _ => by decide

theorem block (dr : Nat) (inc : Bool) : Statement (.block dr inc) := by
  intro h
  have hdr : dr ≤ 31 := h
  rw [fieldOp_toNat]
  cases inc <;> simp only [encode, opValue, BitVec.toNat_ofNat, Bool.toNat_true, Bool.toNat_false] <;> omega

theorem cipher : Statement .cipher := fun _ => by decide

theorem zeroize : Statement .zeroize := fun _ => by decide

end Laws.OpField

end Sys2Proof
end

