-- ==== Sys2Proof/Tests/Slice0.lean ====
section
/-! SUPPORT. Small tests with values from 95_test_vectors.md or worked out by hand from the rules, and for every statement with
hypotheses a witness: states and operands that meet them, one for each clause, at the edges of its range. -/

namespace Sys2Proof.Tests

open Sys2Proof.Machine

/-! ## Helpers -/

/-- The next state, if there is one. -/
def next? : Host.Outcome State Fault Refusal → Option State
  | .next t => some t
  | .fault _ => none
  | .refused _ => none

/-- A view of the state after one step. -/
def after {α : Type} (s : State) (f : State → α) : Option α := (next? (step s)).map f

/-- A view of the state after a command has run on `s`. -/
def ran {α : Type} (i : Instr) (s : State) (f : State → α) : Option α := (next? (exec i s)).map f

/-- Key and nonce loaded, all zero. -/
def loaded : State := { State.reset with keyld := 0xFF, nonceld := 0b111 }

/-- Command word `w` accepted, its first step still to come. -/
def accepted (w : Word) : State := { loaded with busy := true, curcmd := w }

/-- A CIPHER that passed its checks, from 0x1000 to 0x2000, `n` bytes, zero key, nonce and counter, at PHASE = GEN. -/
def running (n : Word) : State :=
  { accepted 0x00000003 with
    src := 0x1000, dst := 0x2000, len := n, dcap := n, svalid := true, phase := .gen
    state := initState (Vector.replicate 8 0) (0 + BitVec.ofNat 32 0) (Vector.replicate 3 0) }

/-- `running 100` after its GEN step. -/
def reading : State :=
  { running 100 with
    phase := .rd
    state := initState (Vector.replicate 8 0) (0 + BitVec.ofNat 32 1) (Vector.replicate 3 0)
    ks := block (initState (Vector.replicate 8 0) (0 + BitVec.ofNat 32 0) (Vector.replicate 3 0)) 10 }

/-- The state of V-INIT-2. -/
def zeroState : Vector Word 16 := initState (Vector.replicate 8 0) 0 (Vector.replicate 3 0)

/-- The state of V-INIT-1, from the key and nonce bytes of the call contract. -/
def rfcState : Vector Word 16 :=
  initState (keyWords (Vector.ofFn fun i : Fin 32 => BitVec.ofNat 8 i.val)) 1
    (nonceWords #v[0, 0, 0, 0x09, 0, 0, 0, 0x4a, 0, 0, 0, 0])

/-! ## Well-formedness and decoding (95_test_vectors.md 2.10) -/

theorem test_wellformed_count : (Instr.block 31 true).WellFormed ∧ (Instr.block 0 false).WellFormed := by decide

theorem test_illformed_count : ¬(Instr.block 32 false).WellFormed := by decide

theorem test_decode_nop : decode 0b00000000000_00000_0000000_0_0000_0000 = .ok .nop := rfl

theorem test_decode_init : decode 0b00000000000_00000_0000000_0_0000_0001 = .ok .init := rfl

theorem test_decode_block : decode 0b00000000000_01010_0000000_0_0000_0010 = .ok (.block 10 false) := rfl

theorem test_decode_block_inc : decode 0b00000000000_11111_0000000_1_0000_0010 = .ok (.block 31 true) := rfl

theorem test_decode_cipher : decode 0b00000000000_00000_0000000_0_0000_0011 = .ok .cipher := rfl

theorem test_decode_zeroize : decode 0b00000000000_00000_0000000_0_0000_0100 = .ok .zeroize := rfl

theorem test_decode_reserved_op :
    decode 0x00000005 = .error .reservedOp ∧ decode 0x0000000F = .error .reservedOp := ⟨rfl, rfl⟩

theorem test_decode_reserved_bits :
    decode 0x00000010 = .error .reservedBits ∧ decode 0x000A0012 = .error .reservedBits ∧
    decode 0x00000200 = .error .reservedBits ∧ decode 0x00200002 = .error .reservedBits ∧
    decode 0x80000002 = .error .reservedBits ∧ decode 0xFFFFFFFF = .error .reservedBits := ⟨rfl, rfl, rfl, rfl, rfl, rfl⟩

theorem test_decode_stray_operands :
    decode 0x00000101 = .error .operandOutsideBlock ∧ decode 0x00000100 = .error .operandOutsideBlock ∧
    decode 0x00010001 = .error .operandOutsideBlock ∧ decode 0x00010003 = .error .operandOutsideBlock := ⟨rfl, rfl, rfl, rfl⟩

/-- 30_encoding.md R86, R87: the syntax, a count above 31, and a pseudo-command. -/
theorem test_assembler :
    parseCommand ['B', 'L', 'O', 'C', 'K', ' ', 'd', 'r', '=', '0', 'x', '1', 'f', ',', ' ', 'i', 'n', 'c'] = some (.block 31 true) ∧
    parseCommand ['B', 'L', 'O', 'C', 'K', ' ', 'd', 'r', '=', '3', '2'] = none ∧
    parseCommand ['B', 'L', 'O', 'C', 'K', '2', '0', '.', 'I', 'N', 'C'] = some (.block 10 true) := by decide

/-! ## The datapath (95_test_vectors.md 2.1 to 2.6) -/

theorem test_le_bytes : leBytes 0x01020304 = #v[0x04, 0x03, 0x02, 0x01] := by decide

theorem test_le_word : leWord 0xEF 0xBE 0xAD 0xDE = 0xDEADBEEF ∧ leWord 0x65 0x78 0x70 0x61 = Config.const0 := by decide

theorem test_rotl32 :
    rotl32 0x80000001 1 = 0x00000003 ∧ rotl32 0x12345678 0 = 0x12345678 ∧ rotl32 0x12345678 31 = 0x091A2B3C ∧
    rotl32 0x12345678 16 = 0x56781234 ∧ rotl32 0x01234567 8 = 0x23456701 ∧ rotl32 0x01234567 12 = 0x34567012 ∧
    rotl32 0x01234567 7 = 0x91A2B380 := by decide

/-- V-QR-2. -/
theorem test_quarter_round :
    qr #v[0x879531E0, 0xC5ECF37D, 0x516461B1, 0xC9A62F8A, 0x44C20EF3, 0x3390AF7F, 0xD9FC690B, 0x2A5F714C,
        0x53372767, 0xB00A5631, 0x974C541A, 0x359E9963, 0x5C971061, 0x3D631689, 0x2098D9D6, 0x91DBD320] 2 7 8 13 =
      #v[0x879531E0, 0xC5ECF37D, 0xBDB886DC, 0xC9A62F8A, 0x44C20EF3, 0x3390AF7F, 0xD9FC690B, 0xCFACAFD2,
        0xE46BEA80, 0xB00A5631, 0x974C541A, 0x359E9963, 0x5C971061, 0xCCC07C79, 0x2098D9D6, 0x91DBD320] := by decide +kernel

/-- V-INIT-1. -/
theorem test_init_state :
    rfcState = #v[0x61707865, 0x3320646E, 0x79622D32, 0x6B206574, 0x03020100, 0x07060504, 0x0B0A0908, 0x0F0E0D0C,
      0x13121110, 0x17161514, 0x1B1A1918, 0x1F1E1D1C, 0x00000001, 0x09000000, 0x4A000000, 0x00000000] := by decide +kernel

/-- V-DR-1. -/
theorem test_double_round :
    doubleRound rfcState = #v[0xCD52E917, 0x85AB03B4, 0xB3457395, 0xF96DE7DD, 0xC4B7CD22, 0x5C2E187A, 0xC95EB461, 0x316C801A,
      0x7BF7D740, 0x7EDDD644, 0xF1A1BDF5, 0x761246CA, 0x6B0D58A3, 0x6798471A, 0xD737F167, 0xF173888D] := by decide +kernel

set_option maxRecDepth 100000 in
/-- V-BLK-1, the pinned known-answer vector (92_eei_decisions.md D39), whole. -/
theorem test_known_answer :
    block zeroState 10 = #v[
      0x76, 0xB8, 0xE0, 0xAD, 0xA0, 0xF1, 0x3D, 0x90, 0x40, 0x5D, 0x6A, 0xE5, 0x53, 0x86, 0xBD, 0x28,
      0xBD, 0xD2, 0x19, 0xB8, 0xA0, 0x8D, 0xED, 0x1A, 0xA8, 0x36, 0xEF, 0xCC, 0x8B, 0x77, 0x0D, 0xC7,
      0xDA, 0x41, 0x59, 0x7C, 0x51, 0x57, 0x48, 0x8D, 0x77, 0x24, 0xE0, 0x3F, 0xB8, 0xD8, 0x4A, 0x37,
      0x6A, 0x43, 0xB8, 0xF4, 0x15, 0x18, 0xA1, 0x1C, 0xC3, 0x87, 0xB6, 0x69, 0xB2, 0xEE, 0x65, 0x86] := by decide +kernel

set_option maxRecDepth 100000 in
/-- V-BLK-3: block 10 of V-INIT-1, its first and last four bytes. -/
theorem test_rfc_block :
    (block rfcState 10).toList.take 4 = [0x10, 0xF1, 0xE7, 0xE4] ∧
    (block rfcState 10).toList.drop 60 = [0xA2, 0x50, 0x3C, 0x4E] := by decide +kernel

/-! ## One step of each command -/

theorem test_nop : ran .nop State.reset (fun t => (statusWord t, irq t)) = some (0x002, false) := by decide

/-- V-ERR-1 and V-ERR-2. -/
theorem test_init_errors :
    ran .init { State.reset with keyld := 0x7F } statusWord = some 0x106 ∧
    ran .init { State.reset with keyld := 0xFF } statusWord = some 0x206 := by decide

/-- V-INIT-2, with a counter. -/
theorem test_init :
    ran .init { loaded with counter := 0xFFFFFFFF } (fun t => (statusWord t, regValue t .sctr)) =
      some (0x012, 0xFFFFFFFF) := by decide

/-- V-BCMD-5, V-BCMD-4b. -/
theorem test_block_errors :
    ran (.block 10 false) State.reset statusWord = some 0x506 ∧
    ran (.block 0 false) { loaded with svalid := true, cexh := true } statusWord = some 0x436 := by decide

/-- V-BLK-6 and R151: DR = 0 doubles each word, and the increment of 0xFFFFFFFF sets CEXH. -/
theorem test_block_wraps :
    ran (.block 0 true) { loaded with svalid := true, state := initState (Vector.replicate 8 0) 0xFFFFFFFF (Vector.replicate 3 0) }
      (fun t => (statusWord t, regValue t .sctr, ksWord t 0, ksWord t 12)) =
      some (0x032, 0, 0xC2E0F0CA, 0xFFFFFFFE) := by decide +kernel

/-- V-ERR-3, V-ERR-3b, V-ERR-4: the order of CIPHER's checks. -/
theorem test_cipher_check_order :
    ran .cipher { loaded with counter := 0xFFFFFFFF, src := 0xFFFFFFF0, len := 100, dcap := 50 } statusWord = some 0x306 ∧
    ran .cipher { loaded with counter := 0xFFFFFFFF, src := 0xFFFFFFF0, len := 100, dcap := 100 } statusWord = some 0x606 ∧
    ran .cipher { loaded with counter := 0xFFFFFFFF, len := 100, dcap := 100 } statusWord = some 0x406 := by decide

/-- V-CIPH-6, third row, its second byte (0x22 with keystream byte 0xb8 gives 0x9a), here the last byte of two. -/
theorem test_cipher_store :
    ran .cipher
      { running 2 with
        phase := .wr, ci := 1, dst := 0x1000, ibyte := 0x22, ks := (Vector.replicate 64 0).set 1 0xB8 }
      (fun t => (statusWord t, t.mem, t.ci)) = some (0x012, [(0x1001, 0x9A)], 2) := by decide

/-- V-HOST-3, step 6. -/
theorem test_zeroize :
    ran .zeroize { running 1 with phase := .check, counter := 5, ie := true }
      (fun t => (statusWord t, loadedWord t, t.counter, t.len, irq t)) = some (0x002, 0, 5, 1, true) := by decide

/-- V-ERR-8, V-ERR-8b: an illegal word completes with code 8. -/
theorem test_illegal_command :
    after { State.reset with busy := true, curcmd := 5 } statusWord = some 0x806 ∧
    after { State.reset with busy := true, curcmd := 0x00200002 } statusWord = some 0x806 := by decide

/-! ## The host's side -/

/-- V-HOST-1: ID, and SCTR at reset. -/
theorem test_read_id :
    after { State.reset with base := 0x4000, schedule := [.busRead 0x4000 32] } State.resp = some (.data 0x30324343) := by decide

/-- V-HOST-2: LOADED after KEY3. -/
theorem test_write_key3 :
    after { State.reset with schedule := [.busWrite 0x02C 32 0xDEADBEEF] } (fun t => (loadedWord t, t.key[3])) =
      some (0x00000008, 0xDEADBEEF) := by decide

/-- V-HOST-3, step 2: writes while busy. -/
theorem test_write_while_busy :
    after { accepted 3 with schedule := [.busWrite 0x014 32 5] } (fun t => (statusWord t, t.counter)) = some (0x009, 0) ∧
    after { accepted 3 with schedule := [.busWrite 0x004 32 1] } (fun t => (statusWord t, t.ie)) = some (0x001, true) := by decide

/-- V-HOST-4: three accesses that get a bus error response. -/
theorem test_bus_errors :
    after { State.reset with schedule := [.busWrite 0x004 8 1] } (fun t => (t.resp, t.ie)) = some (.busError, false) ∧
    after { State.reset with schedule := [.busRead 0x008 16] } State.resp = some .busError ∧
    after { State.reset with schedule := [.busWrite 0x006 32 1] } State.resp = some .busError := by decide

/-- V-ERR-9: STATUS write of 6 after V-ERR-1. -/
theorem test_status_write :
    after { State.reset with done := true, err := true, errcode := 1, schedule := [.busWrite 0x008 32 6] } statusWord =
      some 0 := by decide

/-- V-HOST-6: a reset in a CIPHER. -/
theorem test_reset :
    after { running 100 with mem := [(0x2000, 0x76)], ie := true, schedule := [.reset] }
      (fun t => (statusWord t, loadedWord t, t.mem, t.busy)) = some (0, 0, [(0x2000, 0x76)], false) := by decide

/-- A step runs a presented command word as the first instruction. -/
theorem test_presented_command :
    after (State.reset.withFetchWord 32 0x000A0002) statusWord = some 0x506 := by decide

/-- What a host program has still to do and the results it has named, after its turn. -/
def hostDid (todo : List HostStatement) (s : State) : Option (List HostStatement × List (String × Word)) :=
  match hostTurn (HostProgram.start todo) s with
  | .next (p, _) => some (p.todo, p.results)
  | .fault _ => none
  | .refused _ => none

/-- P1: POLL goes on while STATUS reads BUSY = 1, and ends with the read of BUSY = 0. -/
theorem test_poll :
    hostDid [.poll, .rd .status "s1"] (accepted 0) = some ([.poll, .rd .status "s1"], []) ∧
    hostDid [.poll, .rd .status "s1"] loaded = some ([.rd .status "s1"], []) := by decide

/-- P3: RD names its result; a comment makes no transaction; MEMWR and MEMRD go byte by byte. -/
theorem test_host_statements :
    hostDid [.comment "P3", .rd .status "s9"] { loaded with svalid := true, cexh := true } = some ([], [("s9", 0x030)]) ∧
    hostDid [.memwr 0x1000 [1, 2]] loaded = some ([.memwr 0x1001 [2]], []) ∧
    hostDid [.memrd 0x2000 114] loaded = some ([.memrd 0x2001 113], []) := by decide

/-! ## Witnesses: for each statement with hypotheses, states and operands that meet them, clause by clause -/

/-- `reading` with its first byte read, at PHASE = WR; memory from 0x1000 on holds zeros. -/
def writing : State := { reading with phase := .wr }

/-- `writing` one byte further: 0x76, the first byte of V-BLK-1, is at 0x2000. -/
def writingNext : State := { writing with ci := 1, mem := [(0x2000, 0x76)] }

/-- `writing` with 64 bytes written, the next chunk's block still to come. -/
def nextChunk : State :=
  { running 100 with
    ci := 64
    state := initState (Vector.replicate 8 0) (0 + BitVec.ofNat 32 1) (Vector.replicate 3 0) }

theorem witness_CipherProgress_running : CipherProgress (running 100) :=
  ⟨by decide, by decide, by decide, by decide, by decide, by decide, by decide +kernel, by decide, fun h => absurd rfl h⟩

theorem witness_CipherProgress_reading : CipherProgress reading :=
  ⟨by decide, by decide, by decide, by decide, by decide, by decide, by decide +kernel, by decide, fun _ => rfl⟩

theorem witness_CipherProgress_writing : CipherProgress writing :=
  ⟨by decide, by decide, by decide, by decide, by decide, by decide, by decide +kernel, by decide, fun _ => rfl⟩

theorem witness_CipherProgress_writingNext : CipherProgress writingNext :=
  ⟨by decide, by decide, by decide, by decide, by decide, by decide, by decide +kernel, by decide, fun _ => rfl⟩

theorem witness_CipherProgress_nextChunk : CipherProgress nextChunk :=
  ⟨by decide, by decide, by decide, by decide, by decide, by decide, by decide +kernel, by decide, fun h => absurd rfl h⟩

theorem witness_EngineInv_running : EngineInv (running 100) :=
  ⟨Memory.wf_nil, ⟨by decide, by decide⟩, by decide, fun _ => witness_CipherProgress_running, by decide, by decide, by decide⟩

theorem witness_EngineInv_reading : EngineInv reading :=
  ⟨Memory.wf_nil, ⟨by decide, by decide⟩, by decide, fun _ => witness_CipherProgress_reading, by decide, by decide, by decide⟩

theorem witness_EngineInv_writing : EngineInv writing :=
  ⟨Memory.wf_nil, ⟨by decide, by decide⟩, by decide, fun _ => witness_CipherProgress_writing, by decide, by decide, by decide⟩

theorem witness_EngineInv_writingNext : EngineInv writingNext :=
  ⟨by decide, ⟨by decide, by decide⟩, by decide, fun _ => witness_CipherProgress_writingNext, by decide, by decide, by decide⟩

theorem witness_EngineInv_nextChunk : EngineInv nextChunk :=
  ⟨Memory.wf_nil, ⟨by decide, by decide⟩, by decide, fun _ => witness_CipherProgress_nextChunk, by decide, by decide, by decide⟩

theorem witness_EngineInv_reset : EngineInv State.reset :=
  ⟨Memory.wf_nil, ⟨by decide, by decide⟩, by decide, fun h => absurd rfl h, by decide, by decide, by decide⟩

set_option maxRecDepth 100000 in
theorem witness_CipherOutput_writingNext : CipherOutput writingNext :=
  ⟨by decide, fun _ _ _ i h => by
    have : i = 0 := by have : i < 1 := h; omega
    subst this
    decide +kernel⟩

theorem witness_BuffersDisjoint : BuffersDisjoint writingNext := by
  intro a
  simp [inSource, inDest, writingNext, writing, reading, running, accepted, loaded]
  omega

theorem witness_DecodeOfEncode :
    Instr.nop.WellFormed ∧ Instr.init.WellFormed ∧ (Instr.block 31 true).WellFormed ∧ (Instr.block 0 false).WellFormed ∧
    Instr.cipher.WellFormed ∧ Instr.zeroize.WellFormed := by decide

theorem witness_EncodeOfDecode : decode 0x001F0102 = .ok (.block 31 true) := rfl

theorem witness_IllegalWordCompletes :
    let s := accepted 0x00000005
    let u := { accepted 0x00200002 with schedule := [.engine, .reset] }
    (EngineMoves s [] ∧ s.busy = true ∧ s.phase = .check ∧ legal s.curcmd = false) ∧
    EngineMoves u [.reset] ∧ u.busy = true ∧ u.phase = .check ∧ legal u.curcmd = false := by decide

theorem witness_AssemblerReadsItsText : (Instr.block 31 true).WellFormed ∧ (Instr.block 0 false).WellFormed := by decide

theorem witness_StepRunsDecodedCommand :
    let s := accepted 0x001F0102
    let u := { accepted 0x00000003 with schedule := [.engine] }
    (EngineMoves s [] ∧ s.busy = true ∧ s.phase = .check ∧ decode s.curcmd = .ok (.block 31 true)) ∧
    EngineMoves u [] ∧ u.busy = true ∧ u.phase = .check ∧ decode u.curcmd = .ok .cipher :=
  ⟨⟨by decide, rfl, rfl, rfl⟩, by decide, rfl, rfl, rfl⟩

theorem witness_StepContinuesOrIdles :
    let idle := { loaded with schedule := [.engine, .engine] }
    (EngineMoves (running 1) [] ∧ (running 1).busy = true ∧ (running 1).phase ≠ .check) ∧
    EngineMoves idle [.engine] ∧ idle.busy = false := by decide

theorem witness_PresentedCommandRuns : decodeTableWord 32 0x001F0102 = some (.block 31 true) ∧
    decodeTableWord 32 0x00000000 = some .nop := ⟨rfl, rfl⟩

theorem witness_InitBuildsState : loaded.keyld = 0xFF ∧ loaded.nonceld = 0b111 := by decide

theorem witness_InitRejectsUnloaded :
    let k := { loaded with keyld := 0x7F }
    let n := { loaded with nonceld := 0b011 }
    k.keyld ≠ 0xFF ∧ n.keyld = 0xFF ∧ n.nonceld ≠ 0b111 := by decide

theorem witness_BlockWritesKeystream :
    let s := { loaded with svalid := true, state := zeroState.set 12 0xFFFFFFFF }
    s.svalid = true ∧ s.cexh = false := by decide

theorem witness_BlockRejections :
    let s := { loaded with svalid := true, cexh := true }
    State.reset.svalid = false ∧ s.svalid = true ∧ s.cexh = true := by decide

theorem witness_BlockGivesKeystreamChunk :
    let k := Vector.replicate 8 (0x11223344 : Word)
    let n := Vector.replicate 3 (0x55 : Word)
    let s := { loaded with svalid := true, state := initState k (0xFFFFFFFE + BitVec.ofNat 32 1) n }
    s.svalid = true ∧ s.cexh = false ∧ s.state = initState k (0xFFFFFFFE + BitVec.ofNat 32 1) n := ⟨rfl, rfl, rfl⟩

theorem witness_CipherChecksInOrder :
    let k := { loaded with keyld := 0xFE }
    let n := { loaded with nonceld := 0b110 }
    let d := { loaded with len := 1, dcap := 0 }
    let a := { loaded with src := 0xFFFFFFC1, len := 64, dcap := 64 }
    let b := { loaded with dst := 0xFFFFFFFF, len := 2, dcap := 2 }
    let c := { loaded with src := 0xFFFFFFBF, counter := 0xFFFFFFFF, len := 65, dcap := 65 }
    let p := { loaded with src := 0xFFFFFFC0, dst := 0xFFFFFFC0, counter := 0xFFFFFFFF, len := 64, dcap := 64 }
    (k.phase = .check ∧ k.keyld ≠ 0xFF) ∧
    (n.phase = .check ∧ n.keyld = 0xFF ∧ n.nonceld ≠ 0b111) ∧
    (d.phase = .check ∧ d.keyld = 0xFF ∧ d.nonceld = 0b111 ∧ d.dcap.toNat < d.len.toNat) ∧
    (a.phase = .check ∧ a.keyld = 0xFF ∧ a.nonceld = 0b111 ∧ a.len.toNat ≤ a.dcap.toNat ∧
      2 ^ 32 < a.src.toNat + a.len.toNat) ∧
    (b.phase = .check ∧ b.keyld = 0xFF ∧ b.nonceld = 0b111 ∧ b.len.toNat ≤ b.dcap.toNat ∧
      2 ^ 32 < b.dst.toNat + b.len.toNat) ∧
    (c.phase = .check ∧ c.keyld = 0xFF ∧ c.nonceld = 0b111 ∧ c.len.toNat ≤ c.dcap.toNat ∧
      c.src.toNat + c.len.toNat ≤ 2 ^ 32 ∧ c.dst.toNat + c.len.toNat ≤ 2 ^ 32 ∧
      2 ^ 32 < c.counter.toNat + (c.len.toNat + 63) / 64) ∧
    p.phase = .check ∧ p.keyld = 0xFF ∧ p.nonceld = 0b111 ∧ p.len.toNat ≤ p.dcap.toNat ∧
      p.src.toNat + p.len.toNat ≤ 2 ^ 32 ∧ p.dst.toNat + p.len.toNat ≤ 2 ^ 32 ∧
      p.counter.toNat + (p.len.toNat + 63) / 64 ≤ 2 ^ 32 := by decide

theorem witness_CipherInitialises :
    let s := { loaded with src := 0xFFFFFFC0, dst := 0xFFFFFFC0, counter := 0xFFFFFFFF, len := 64, dcap := 64 }
    s.phase = .check ∧ s.keyld = 0xFF ∧ s.nonceld = 0b111 ∧ s.len.toNat ≤ s.dcap.toNat ∧
    s.src.toNat + s.len.toNat ≤ 2 ^ 32 ∧ s.dst.toNat + s.len.toNat ≤ 2 ^ 32 ∧
    s.counter.toNat + (s.len.toNat + 63) / 64 ≤ 2 ^ 32 ∧ s.len ≠ 0 := by decide

theorem witness_CipherOfNothing :
    let s := { loaded with src := 0xFFFFFFFF, counter := 0xFFFFFFFF }
    let k := { s with keyld := 0 }
    let n := { s with nonceld := 0 }
    (k.phase = .check ∧ k.len = 0 ∧ k.keyld ≠ 0xFF) ∧
    (n.phase = .check ∧ n.len = 0 ∧ n.keyld = 0xFF ∧ n.nonceld ≠ 0b111) ∧
    s.phase = .check ∧ s.len = 0 ∧ s.keyld = 0xFF ∧ s.nonceld = 0b111 := by decide

theorem witness_CipherGeneratesBlock : (running 1).phase = .gen := rfl

theorem witness_CipherReadsByte :
    let s := { reading with src := 0xFFFFFF9C, ci := 99 }
    s.phase = .rd ∧ Answered s .read (s.src.toNat + s.ci) := by decide

theorem witness_CipherWritesByte :
    let s := { writing with dst := 0xFFFFFF9C, ci := 99 }
    let c := { writing with ci := 63, raced := true }
    (s.phase = .wr ∧ s.mem.wf ∧ Answered s .write (s.dst.toNat + s.ci) ∧ s.raced = false ∧ s.ci + 1 = s.len.toNat) ∧
    (c.phase = .wr ∧ c.mem.wf ∧ Answered c .write (c.dst.toNat + c.ci) ∧ c.raced = true ∧ c.ci + 1 ≠ c.len.toNat ∧
      (c.ci + 1) % 64 = 0) ∧
    writing.phase = .wr ∧ writing.mem.wf ∧ Answered writing .write (writing.dst.toNat + writing.ci) ∧
      writing.ci + 1 ≠ writing.len.toNat ∧ (writing.ci + 1) % 64 ≠ 0 := by decide

/-- V-CIPH-8 and V-CIPH-7: the last address of a region, and its only address. -/
theorem witness_CipherBusErrorEnds :
    let r := { reading with memBad := [⟨.read, 0x0FFF, 2⟩] }
    let w := { writing with ci := 70, memBad := [⟨.read, 0x2046, 1⟩, ⟨.write, 0x2046, 1⟩] }
    (r.phase = .rd ∧ AnsweredByError r .read (r.src.toNat + r.ci)) ∧
    w.phase = .wr ∧ AnsweredByError w .write (w.dst.toNat + w.ci) := by decide

theorem witness_UnansweredAccessStalls :
    let r := { reading with memSilent := [⟨.read, 0x1000, 1⟩] }
    let w := { writing with memSilent := [⟨.write, 0, 2 ^ 32⟩], schedule := [.engine, .memoryAnswers []] }
    (EngineMoves r [] ∧ r.busy = true ∧ r.phase = .rd ∧ Unanswered r .read (r.src.toNat + r.ci)) ∧
    EngineMoves w [.memoryAnswers []] ∧ w.busy = true ∧ w.phase = .wr ∧ Unanswered w .write (w.dst.toNat + w.ci) := by decide

/-- A CIPHER of `len` bytes, accepted, its first step still to come. -/
def starting (src dst len counter : Word) : State :=
  { accepted 0x00000003 with src := src, dst := dst, len := len, dcap := len, counter := counter }

theorem allAnswered_starting (src dst len counter : Word) (hs : src.toNat + len.toNat ≤ 2 ^ 32)
    (hd : dst.toNat + len.toNat ≤ 2 ^ 32) : AllAnswered (starting src dst len counter) := by
  intro i hi
  have hi : i < len.toNat := hi
  exact ⟨⟨show src.toNat + i < 2 ^ 32 by omega, List.forall_mem_nil _, List.forall_mem_nil _⟩,
    show dst.toNat + i < 2 ^ 32 by omega, List.forall_mem_nil _, List.forall_mem_nil _⟩

/-- What `CipherRunCompletes` asks, beside `AllAnswered`. -/
abbrev Startable (s : State) : Prop :=
  s.schedule = [] ∧ s.busy = true ∧ s.phase = .check ∧ s.curcmd = 0x00000003 ∧ s.raced = false ∧ s.err = false ∧
  s.errcode = 0 ∧ s.mem.wf ∧ cipherError s = none

/-- Out of place with the whole counter used up, the buffers at the top of memory, LEN not a multiple of 64, the output one byte below
the input, the output at the first and the last place inside the input, and LEN = 0. -/
theorem witness_CipherRunCompletes :
    (Startable (starting 0xFFFFFFC0 0x1000 64 0xFFFFFFFF) ∧ AllAnswered (starting 0xFFFFFFC0 0x1000 64 0xFFFFFFFF)) ∧
    (Startable (starting 0x1000 0xFFFFFFBF 65 0xFFFFFFFE) ∧ AllAnswered (starting 0x1000 0xFFFFFFBF 65 0xFFFFFFFE) ∧
      (0x1000 : Word).toNat + (65 : Word).toNat ≤ (0xFFFFFFBF : Word).toNat) ∧
    (Startable (starting 0x1001 0x1000 3 0) ∧ AllAnswered (starting 0x1001 0x1000 3 0) ∧
      (0x1000 : Word).toNat ≤ (0x1001 : Word).toNat) ∧
    (Startable (starting 0x1000 0x1001 3 0) ∧ AllAnswered (starting 0x1000 0x1001 3 0) ∧
      (0x1000 : Word).toNat < (0x1001 : Word).toNat ∧ (0x1001 : Word).toNat < (0x1000 : Word).toNat + (3 : Word).toNat) ∧
    (Startable (starting 0x1000 0x1002 3 0) ∧ AllAnswered (starting 0x1000 0x1002 3 0) ∧
      (0x1000 : Word).toNat < (0x1002 : Word).toNat ∧ (0x1002 : Word).toNat < (0x1000 : Word).toNat + (3 : Word).toNat) ∧
    Startable (starting 0 0 0 0xFFFFFFFF) ∧ AllAnswered (starting 0 0 0 0xFFFFFFFF) ∧
      (starting 0 0 0 0xFFFFFFFF).len = 0 :=
  ⟨⟨by decide, allAnswered_starting _ _ _ _ (by decide) (by decide)⟩,
    ⟨by decide, allAnswered_starting _ _ _ _ (by decide) (by decide), by decide⟩,
    ⟨by decide, allAnswered_starting _ _ _ _ (by decide) (by decide), by decide⟩,
    ⟨by decide, allAnswered_starting _ _ _ _ (by decide) (by decide), by decide⟩,
    ⟨by decide, allAnswered_starting _ _ _ _ (by decide) (by decide), by decide⟩,
    by decide, allAnswered_starting _ _ _ _ (by decide) (by decide), by decide⟩

theorem witness_HostWriteRaces :
    let s := { writingNext with schedule := [.hostStore 0x1063 7] }
    let d := { writingNext with schedule := [.hostStore 0x2000 7] }
    (s.busy = true ∧ s.curcmd = 0x00000003 ∧ s.mem.wf ∧ inSource s (0x1063 : BitVec 32).toNat = true) ∧
    d.busy = true ∧ d.curcmd = 0x00000003 ∧ d.mem.wf ∧ inDest d (0x2000 : BitVec 32).toNat = true ∧
    99 < d.len.toNat ∧ d.dst.toNat + 99 < 2 ^ 32 := by decide

theorem witness_HostReadOfOutputRaces :
    let s := { writingNext with schedule := [.hostLoad 0x2063] }
    s.schedule = [.hostLoad 0x2063] ∧ s.busy = true ∧ s.curcmd = 0x00000003 ∧ s.mem.wf ∧
    inDest s (0x2063 : BitVec 32).toNat = true ∧ 99 < s.len.toNat ∧ s.dst.toNat + 99 < 2 ^ 32 := by decide

theorem witness_HostMemoryAccess :
    let idle := { loaded with schedule := [.hostStore 0xFFFFFFFF 7] }
    let other := { accepted 0x00000000 with schedule := [.hostLoad 0] }
    let outside := { writingNext with schedule := [.hostStore 0x2064 7] }
    let input := { writingNext with schedule := [.hostLoad 0x1063] }
    (idle.mem.wf ∧ idle.busy = false ∧ idle.schedule = [.hostStore 0xFFFFFFFF 7]) ∧
    (outside.mem.wf ∧ inSource outside (0x2064 : BitVec 32).toNat = false ∧
      inDest outside (0x2064 : BitVec 32).toNat = false ∧ outside.schedule = [.hostStore 0x2064 7]) ∧
    (other.curcmd ≠ 0x00000003 ∧ other.schedule = [.hostLoad 0]) ∧
    inSource input (0x1063 : BitVec 32).toNat = true ∧ inDest input (0x1063 : BitVec 32).toNat = false ∧
    input.schedule = [.hostLoad 0x1063] := by decide

theorem witness_CommandsLeaveRegisters :
    (∃ t, exec .zeroize loaded = .next t) ∧ (∃ t, exec .nop loaded = .next t ∧ Instr.nop ≠ .zeroize) ∧
    (∃ t, exec .init loaded = .next t) ∧ (∃ t, exec (.block 31 true) loaded = .next t) ∧
    ∃ t, exec .cipher writing = .next t :=
  ⟨⟨_, rfl⟩, ⟨_, rfl, by decide⟩, ⟨_, rfl⟩, ⟨_, rfl⟩, ⟨_, rfl⟩⟩

theorem witness_CommandsLeaveMemory :
    (∃ t, exec .zeroize loaded = .next t) ∧ (∃ t, exec .cipher reading = .next t ∧ reading.phase ≠ .wr) ∧
    ∃ t, exec .cipher writing = .next t ∧ (0x2001 : Nat) ≠ destAddr writing :=
  ⟨⟨_, rfl⟩, ⟨_, rfl, by decide⟩, ⟨_, rfl, by decide⟩⟩

theorem witness_EngineWritesOnlyOutputBuffer :
    EngineInv writing ∧ EngineMoves writing [] ∧ (∃ t, step writing = .next t) ∧
    ¬(writing.dst.toNat ≤ 0x2064 ∧ 0x2064 < writing.dst.toNat + writing.len.toNat) ∧
    ¬(writing.dst.toNat ≤ 0x1FFF ∧ 0x1FFF < writing.dst.toNat + writing.len.toNat) :=
  ⟨witness_EngineInv_writing, by decide, ⟨_, rfl⟩, by decide, by decide⟩

theorem witness_StateChangesOnlyInCounter :
    (∃ t, step State.reset = .next t) ∧ (∃ t, step (running 1) = .next t) ∧ (∃ t, step (accepted 0x00000001) = .next t) ∧
    (∃ t, step (accepted 0x00000004) = .next t) ∧ ∃ t, step { running 1 with schedule := [.reset] } = .next t :=
  ⟨⟨_, rfl⟩, ⟨_, rfl⟩, ⟨_, rfl⟩, ⟨_, rfl⟩, ⟨_, rfl⟩⟩

theorem witness_LoadedBitsStay :
    (∃ t, step loaded = .next t) ∧ loaded.schedule.head? ≠ some .reset ∧ loaded.busy ≠ true ∧
    loaded.keyld.getLsbD 7 = true ∧ loaded.nonceld.getLsbD 2 = true := ⟨⟨_, rfl⟩, by decide⟩

theorem witness_CodesByCommand :
    (loaded.errcode = 0 ∧ (∃ t, exec .init loaded = .next t) ∧ (∃ t, exec (.block 10 false) loaded = .next t) ∧
      (∃ t, exec .nop loaded = .next t) ∧ (∃ t, exec .zeroize loaded = .next t) ∧
      writing.errcode = 0 ∧ ∃ t, exec .cipher writing = .next t) ∧
    EngineMoves (accepted 0xFFFFFFFF) [] ∧ (accepted 0xFFFFFFFF).busy = true ∧ (accepted 0xFFFFFFFF).phase = .check ∧
    ∀ i, decode (accepted 0xFFFFFFFF).curcmd ≠ .ok i :=
  ⟨⟨rfl, ⟨_, rfl⟩, ⟨_, rfl⟩, ⟨_, rfl⟩, ⟨_, rfl⟩, rfl, ⟨_, rfl⟩⟩, by decide, rfl, rfl, fun _ h => nomatch h⟩

theorem witness_ErrorsLeaveState :
    (State.reset.err = false ∧ ∃ t, exec .init State.reset = .next t ∧ t.err = true) ∧
    (State.reset.err = false ∧ ∃ t, exec .cipher State.reset = .next t ∧ t.err = true) ∧
    (∃ t, exec .cipher { reading with memBad := [⟨.read, 0, 2 ^ 32⟩] } = .next t ∧ t.err = true) ∧
    EngineMoves (accepted 0x10) [] ∧ (accepted 0x10).busy = true ∧ (accepted 0x10).phase = .check ∧
    decode (accepted 0x10).curcmd = .error .reservedBits :=
  ⟨⟨rfl, _, rfl, rfl⟩, ⟨rfl, _, rfl, rfl⟩, ⟨_, rfl, rfl⟩, by decide, rfl, rfl, rfl⟩

theorem witness_BusyEndsInDone :
    ((accepted 0).busy = true ∧ (accepted 0).schedule.head? ≠ some .reset ∧ ∃ t, step (accepted 0) = .next t) ∧
    writing.busy = true ∧ writing.schedule.head? ≠ some .reset ∧ ∃ t, step writing = .next t :=
  ⟨⟨by decide, by decide, _, rfl⟩, by decide, by decide, _, rfl⟩

theorem witness_StatusInvariantKept :
    StatusInv State.reset ∧ (∃ t, step State.reset = .next t) ∧ StatusInv writing ∧ ∃ t, step writing = .next t :=
  ⟨witness_EngineInv_reset.status, ⟨_, rfl⟩, witness_EngineInv_writing.status, _, rfl⟩

theorem witness_MemoryStaysCanonical :
    writingNext.mem.wf ∧ (∃ t, step writingNext = .next t) ∧ State.reset.mem.wf ∧ ∃ t, step State.reset = .next t :=
  ⟨by decide, ⟨_, rfl⟩, Memory.wf_nil, _, rfl⟩

theorem witness_EngineInvariantKept :
    (EngineInv State.reset ∧ ∃ t, step State.reset = .next t) ∧ (EngineInv (running 100) ∧ ∃ t, step (running 100) = .next t) ∧
    (EngineInv reading ∧ ∃ t, step reading = .next t) ∧ (EngineInv writingNext ∧ ∃ t, step writingNext = .next t) ∧
    EngineInv nextChunk ∧ ∃ t, step nextChunk = .next t :=
  ⟨⟨witness_EngineInv_reset, _, rfl⟩, ⟨witness_EngineInv_running, _, rfl⟩, ⟨witness_EngineInv_reading, _, rfl⟩,
    ⟨witness_EngineInv_writingNext, _, rfl⟩, witness_EngineInv_nextChunk, _, rfl⟩

theorem witness_CipherOutputKept :
    EngineInv writingNext ∧ CipherOutput writingNext ∧ BuffersDisjoint writingNext ∧ ∃ t, step writingNext = .next t :=
  ⟨witness_EngineInv_writingNext, witness_CipherOutput_writingNext, witness_BuffersDisjoint, _, rfl⟩

theorem witness_EngineNeverStops : EngineInv State.reset ∧ EngineInv reading ∧ EngineInv writing :=
  ⟨witness_EngineInv_reset, witness_EngineInv_reading, witness_EngineInv_writing⟩

theorem witness_ResetStep : { running 100 with schedule := [.reset, .engine] }.schedule = .reset :: [.engine] := rfl

theorem witness_UndefinedAccessChangesNothing :
    let s := { accepted 3 with base := 0xFFFFF000, schedule := [.busWrite 0xFFFFFFFF 8 1] }
    let r := { State.reset with schedule := [.busRead 0x006 32] }
    (s.base ≤ 0xFFFFFFFF ∧ 0xFFFFFFFF < s.base + 0x1000 ∧ ¬(8 = 32 ∧ 0xFFFFFFFF % 4 = 0) ∧
      s.schedule = [.busWrite 0xFFFFFFFF 8 1]) ∧
    r.base ≤ 0x006 ∧ 0x006 < r.base + 0x1000 ∧ ¬(32 = 32 ∧ 0x006 % 4 = 0) ∧ r.schedule = [.busRead 0x006 32] := by decide

/-- A window at 0xFFFFF000, the highest there is in a 32-bit bus space, with one write to offset `o` to come. -/
def hostWriting (s : State) (o : Nat) : State :=
  { s with base := 0xFFFFF000, schedule := [.busWrite (0xFFFFF000 + o) 32 0xFFFFFFFF] }

/-- As `hostWriting`, with a read. -/
def hostReading (s : State) (o : Nat) : State :=
  { s with base := 0xFFFFF000, schedule := [.busRead (0xFFFFF000 + o) 32] }

/-- A read of a KEY register, and reads at the edges of what is a draw: SCTR, KS0, KS15, and the reserved offset after KS15. -/
theorem witness_KeyIsNotReadable :
    (∀ o ∈ [0x014, 0x020, 0x0FC, 0x140], (hostReading (accepted 3) o).schedule = [.busRead (0xFFFFF000 + o) 32] ∧
      ¬ReadIsDraw (hostReading (accepted 3) o) (0xFFFFF000 + o) 32) ∧
    ∀ o ∈ [0x018, 0x100, 0x13C], ReadIsDraw (hostReading (accepted 3) o) (0xFFFFF000 + o) 32 ∧
      ¬ReadIsDraw (hostReading (accepted 3) o) (0xFFFFF000 + o) 8 ∧
      ¬ReadIsDraw (hostReading State.reset o) (0xFFFFF000 + o) 32 := by decide

theorem witness_WritesWhileBusy :
    (∀ o ∈ [0x00C, 0x014, 0x020, 0x048, 0x050, 0x05C], HostWrites (hostWriting (accepted 3) o) o 0xFFFFFFFF [] ∧
      ProtectedOffset o ∧ (hostWriting (accepted 3) o).busy = true) ∧
    (∀ o ∈ [0x004, 0x008], HostWrites (hostWriting (accepted 3) o) o 0xFFFFFFFF []) ∧
    ∀ o ∈ [0x000, 0x010, 0x018, 0x01C, 0x04C, 0x060, 0x0FC, 0x100, 0x13C, 0x140, 0xFFC],
      HostWrites (hostWriting State.reset o) o 0xFFFFFFFF [] ∧ UnwritableOffset o ∧
      (hostWriting State.reset o).busy = false ∧ ¬ProtectedOffset o := by decide

theorem witness_StatusWriteClears :
    HostWrites (hostWriting State.reset 0x008) 0x008 0xFFFFFFFF [] ∧
    HostWrites (hostWriting (accepted 3) 0x008) 0x008 0xFFFFFFFF [] ∧ StatusInv (hostWriting (accepted 3) 0x008) ∧
      (hostWriting (accepted 3) 0x008).busy = true :=
  ⟨by decide, by decide, ⟨by decide, by decide⟩, rfl⟩

theorem witness_CmdWriteAccepts :
    (HostWrites (hostWriting State.reset 0x00C) 0x00C 0xFFFFFFFF [] ∧ (hostWriting State.reset 0x00C).busy = false) ∧
    HostWrites (hostWriting (accepted 3) 0x00C) 0x00C 0xFFFFFFFF [] ∧ (hostWriting (accepted 3) 0x00C).busy = true := by decide

theorem witness_KeyWriteLoads :
    ∀ i ∈ [0, 7], i < 8 ∧ HostWrites (hostWriting State.reset (0x020 + 4 * i)) (0x020 + 4 * i) 0xFFFFFFFF [] ∧
      (hostWriting State.reset (0x020 + 4 * i)).busy = false := by decide

theorem witness_NonceWriteLoads :
    ∀ i ∈ [0, 2], i < 3 ∧ HostWrites (hostWriting State.reset (0x040 + 4 * i)) (0x040 + 4 * i) 0xFFFFFFFF [] ∧
      (hostWriting State.reset (0x040 + 4 * i)).busy = false := by decide

theorem witness_DataRegisterWrites :
    ∀ o ∈ [0x014, 0x050, 0x054, 0x058, 0x05C], HostWrites (hostWriting State.reset o) o 0xFFFFFFFF [] ∧
      (hostWriting State.reset o).busy = false := by decide

theorem witness_RegisterReads :
    (∀ o ∈ [0x000, 0x004, 0x008, 0x010, 0x014, 0x040, 0x044, 0x048, 0x050, 0x054, 0x058, 0x05C],
      HostReads (hostReading (accepted 3) o) o []) ∧
    ∀ o ∈ [0x00C, 0x020, 0x03C, 0x01C, 0x04C, 0x060, 0x0FC, 0x140, 0xFFC],
      HostReads (hostReading State.reset o) o [] ∧ (o = 0x00C ∨ (0x020 ≤ o ∧ o < 0x040) ∨ ReservedOffset o) := by decide

theorem witness_KeystreamReads :
    ∀ o ∈ [0x018, 0x100, 0x13C], (o = 0x018 ∨ (0x100 ≤ o ∧ o < 0x140)) ∧
      (HostReads (hostReading (accepted 3) o) o [] ∧ (hostReading (accepted 3) o).busy = true) ∧
      (HostReads (hostReading State.reset o) o [] ∧ (hostReading State.reset o).busy = false) ∧
      HostWrites (hostWriting State.reset o) o 0xFFFFFFFF [] := by decide

theorem witness_InterruptLevel :
    ((accepted 0).busy = true ∧ ∃ t, exec .nop (accepted 0) = .next t ∧ t.busy = false) ∧
    ∀ o ∈ [0x004, 0x008, 0x00C], HostWrites (hostWriting State.reset o) o 0xFFFFFFFF [] ∧
      (hostWriting State.reset o).busy = false :=
  ⟨⟨rfl, _, rfl, rfl⟩, by decide⟩

theorem witness_RotationIsCircular : (0 ≤ 31 ∧ 0 < 32) ∧ 31 ≤ 31 ∧ 31 < 32 := by decide

theorem witness_QuarterRoundWords :
    let p : Fin 16 × Fin 16 × Fin 16 × Fin 16 := (3, 4, 9, 14)
    p.1 ≠ p.2.1 ∧ p.1 ≠ p.2.2.1 ∧ p.1 ≠ p.2.2.2 ∧ p.2.1 ≠ p.2.2.1 ∧ p.2.1 ≠ p.2.2.2 ∧ p.2.2.1 ≠ p.2.2.2 := by decide

theorem witness_DoubleRoundOrder : (0 : Fin 4) ≠ 3 := by decide

end Sys2Proof.Tests
end

section
/-! SUPPORT. What a command, a move of another agent and a step can make of a state, as cases with names: every proof about all
steps is a case split over them. -/

namespace Sys2Proof.Machine

/-- What the command `i` makes of `s` when it answers: one constructor per way it ends, with what it checked. -/
inductive CommandEffect (s : State) : Instr → State → Prop where
  /-- Any command can end with an error (60_exceptions.md R206). -/
  | fails (i : Instr) (e : ErrorCode) : CommandEffect s i (raise s e)
  | nop : CommandEffect s .nop (finish s 0)
  | init (hload : loadedError s = none) : CommandEffect s .init (finish (captureState s) 0)
  | block (dr : Nat) (hsvalid : s.svalid = true) (hcexh : s.cexh = false) :
      CommandEffect s (.block dr false) (finish (generateBlock s dr) 0)
  | blockInc (dr : Nat) (hsvalid : s.svalid = true) (hcexh : s.cexh = false) :
      CommandEffect s (.block dr true) (finish (counterIncrement (generateBlock s dr)) 0)
  | zeroize : CommandEffect s .zeroize (finish (zeroizeState s) 0)
  | cipherEmpty (hphase : s.phase = .check) (hcheck : cipherError s = none) (hlen : s.len = 0) :
      CommandEffect s .cipher (finish (cipherStart s) 0)
  | cipherStarts (hphase : s.phase = .check) (hcheck : cipherError s = none) (hlen : s.len ≠ 0) :
      CommandEffect s .cipher (setPhase (cipherStart s) .gen)
  | cipherGenerates (hphase : s.phase = .gen) : CommandEffect s .cipher (cipherGen s)
  | cipherFetches (hphase : s.phase = .rd) (hok : dmaAnswer s .read (sourceAddr s) = .ok) :
      CommandEffect s .cipher (cipherFetch s)
  | cipherStores (hphase : s.phase = .wr) (hok : dmaAnswer s .write (destAddr s) = .ok) :
      CommandEffect s .cipher (cipherAdvance (cipherStore s))
  /-- Memory does not answer (20_memory.md R62). -/
  | cipherStalls (hphase : s.phase ≠ .check) : CommandEffect s .cipher s

theorem exec_effect {i : Instr} {s t : State} (h : exec i s = .next t) : CommandEffect s i t := by
  cases i with
  | nop => cases h; exact .nop
  | init =>
    obtain ⟨e, -, rfl⟩ | ⟨hl, rfl⟩ := execInit_cases h
    · exact .fails _ e
    · exact .init hl
  | block dr inc =>
    obtain ⟨-, rfl⟩ | ⟨-, -, rfl⟩ | ⟨hv, hc, rfl⟩ := execBlock_cases h
    · exact .fails _ _
    · exact .fails _ _
    · cases inc
      · exact .block dr hv hc
      · exact .blockInc dr hv hc
  | zeroize => cases h; exact .zeroize
  | cipher =>
    obtain ⟨hp, rfl⟩ | ⟨hp, rfl⟩ | ⟨hp, h⟩ | ⟨hp, h⟩ := execCipher_cases h
    · obtain ⟨e, -, h⟩ | ⟨he, hl, h⟩ | ⟨he, hl, h⟩ := cipherCheck_cases s <;> rw [h]
      · exact .fails _ e
      · exact .cipherEmpty hp he hl
      · exact .cipherStarts hp he hl
    · exact .cipherGenerates hp
    · obtain ⟨ha, rfl⟩ | ⟨-, rfl⟩ | ⟨-, rfl⟩ := dmaStep_cases h
      · exact .cipherFetches hp ha
      · exact .fails _ _
      · exact .cipherStalls (by simp [hp])
    · obtain ⟨ha, rfl⟩ | ⟨-, rfl⟩ | ⟨-, rfl⟩ := dmaStep_cases h
      · exact .cipherStores hp ha
      · exact .fails _ _
      · exact .cipherStalls (by simp [hp])

/-- The command whose meaning the engine's turn runs: the one CURCMD holds at PHASE = CHECK, and CIPHER at any other PHASE
(41_control_commands.md R133; notes/assumptions/13.md). -/
structure Runs (s : State) (i : Instr) : Prop where
  busy : s.busy = true
  command : (s.phase = .check ∧ decode s.curcmd = .ok i) ∨ (s.phase ≠ .check ∧ i = .cipher)

/-- At PHASE = CHECK the command that runs is the one CURCMD holds. -/
theorem Runs.decoded {s : State} {i : Instr} (h : Runs s i) (hp : s.phase = .check) : decode s.curcmd = .ok i := by
  obtain ⟨-, hd⟩ | ⟨hne, -⟩ := h.command
  · exact hd
  · exact absurd hp hne

/-- A command other than CIPHER runs at PHASE = CHECK. -/
theorem Runs.check {s : State} {i : Instr} (h : Runs s i) (hi : i ≠ .cipher) : s.phase = .check := by
  obtain ⟨hp, -⟩ | ⟨-, hc⟩ := h.command
  · exact hp
  · exact absurd hc hi

theorem engineTurn_effect {s t : State} (h : engineTurn s = .next t) :
    (s.busy = false ∧ t = s) ∨ (s.busy = true ∧ t = raise s .illegalCommand) ∨ ∃ i, Runs s i ∧ CommandEffect s i t := by
  obtain ⟨hb, rfl⟩ | ⟨hb, hp, i, hd, h⟩ | ⟨hb, -, -, rfl⟩ | ⟨hb, hp, h⟩ := engineTurn_cases h
  · exact .inl ⟨hb, rfl⟩
  · exact .inr (.inr ⟨i, ⟨hb, .inl ⟨hp, hd⟩⟩, exec_effect h⟩)
  · exact .inr (.inl ⟨hb, rfl⟩)
  · exact .inr (.inr ⟨.cipher, ⟨hb, .inr ⟨hp, rfl⟩⟩, exec_effect h⟩)

/-- What a move of an agent other than the engine makes of `s`. -/
inductive EnvironmentEffect (s : State) : Move → State → Prop where
  /-- An access or a memory event that leaves every register and every internal array of the engine. -/
  | outside (m : Move) (mem : Memory) (silent : List Region) (resp : Response) (raced : Bool) (draws : Nat) :
      EnvironmentEffect s m { s with mem := mem, memSilent := silent, resp := resp, raced := raced, draws := draws }
  /-- A register write that is dropped (10_state.md R22). -/
  | dropped (m : Move) (hbusy : s.busy = true) : EnvironmentEffect s m (respond (dropWrite s) .ack)
  /-- A register write that takes effect (10_state.md R22). -/
  | written (m : Move) (r : Reg) (v : Word) (hok : s.busy = false ∨ r.writeProtected = false) :
      EnvironmentEffect s m (respond (regEffect s v r) .ack)
  /-- A reset (70_reset_and_hazards.md R240). -/
  | reset : EnvironmentEffect s .reset (resetEngine s)

theorem environmentMove_effect (s : State) (m : Move) : EnvironmentEffect s m (environmentMove s m) := by
  cases m with
  | engine => exact .outside _ s.mem s.memSilent s.resp s.raced s.draws
  | busRead addr bits =>
    obtain ⟨r, n, h⟩ := busRead_frame s addr bits
    rw [environmentMove, h]
    exact .outside _ s.mem s.memSilent r s.raced n
  | busWrite addr bits v =>
    rw [environmentMove]
    obtain ⟨-, h⟩ | ⟨-, -, h⟩ | ⟨-, -, h⟩ := busWrite_cases s addr bits v <;> rw [h]
    · exact .outside _ s.mem s.memSilent .undecoded s.raced s.draws
    · exact .outside _ s.mem s.memSilent .busError s.raced s.draws
    · obtain ⟨hb, -, hw⟩ | ⟨hok, hw⟩ := regWrite_cases s (regAt (addr - s.base)) v <;> rw [hw]
      · exact .dropped _ hb
      · exact .written _ _ v hok
  | hostLoad a =>
    rw [environmentMove]
    obtain ⟨-, -, h⟩ | ⟨-, h⟩ := hostLoad_cases s a <;> rw [h]
    · exact .outside _ _ s.memSilent _ true _
    · exact .outside _ s.mem s.memSilent _ s.raced s.draws
  | hostStore a v =>
    rw [environmentMove]
    obtain ⟨-, -, h⟩ | ⟨-, h⟩ := hostStore_cases s a v <;> rw [h]
    · exact .outside _ _ s.memSilent .ack true _
    · exact .outside _ _ s.memSilent .ack s.raced s.draws
  | memoryAnswers silent => exact .outside _ s.mem silent s.resp s.raced s.draws
  | reset => exact .reset

/-- A step is an idle turn, the completion of an illegal word, a command's effect, or another agent's. -/
theorem step_effect {s t : State} (h : step s = .next t) :
    (∃ rest, EngineMoves s rest ∧
      (t = setSchedule s rest ∨ (s.busy = true ∧ t = raise (setSchedule s rest) .illegalCommand) ∨
        ∃ i, Runs (setSchedule s rest) i ∧ CommandEffect (setSchedule s rest) i t)) ∨
      ∃ m rest, s.schedule = m :: rest ∧ EnvironmentEffect (setSchedule s rest) m t := by
  obtain ⟨rest, he, h⟩ | ⟨m, rest, hs, -, rfl⟩ := step_cases h
  · refine .inl ⟨rest, he, ?_⟩
    obtain ⟨-, rfl⟩ | hill | hrun := engineTurn_effect h
    · exact .inl rfl
    · exact .inr (.inl hill)
    · exact .inr (.inr hrun)
  · exact .inr ⟨m, rest, hs, environmentMove_effect _ m⟩

/-- A predicate holds after every step if moving the schedule on, an illegal word, every command that runs and every move of another
agent keep it. -/
theorem step_keeps {P : State → Prop} (hschedule : ∀ s rest, P s → P (setSchedule s rest))
    (hillegal : ∀ s, P s → P (raise s .illegalCommand))
    (hcommand : ∀ s i t, P s → Runs s i → exec i s = .next t → P t)
    (henvironment : ∀ s m, P s → P (environmentMove s m)) {s t : State} (hs : P s) (h : step s = .next t) : P t := by
  obtain ⟨rest, -, h⟩ | ⟨m, rest, -, -, rfl⟩ := step_cases h
  · have hs' := hschedule s rest hs
    obtain ⟨-, rfl⟩ | ⟨hb, hp, i, hd, h⟩ | ⟨-, -, -, rfl⟩ | ⟨hb, hp, h⟩ := engineTurn_cases h
    · exact hs'
    · exact hcommand _ i t hs' ⟨hb, .inl ⟨hp, hd⟩⟩ h
    · exact hillegal _ hs'
    · exact hcommand _ .cipher t hs' ⟨hb, .inr ⟨hp, rfl⟩⟩ h
  · exact henvironment _ m (hschedule s rest hs)

end Sys2Proof.Machine
end

section
/-! PROOF. The STATUS invariants (10_state.md R26), kept by every step. -/

namespace Sys2Proof.Machine

/-- Completion keeps the STATUS invariants, whatever the code (60_exceptions.md R205). -/
theorem StatusInv.finish {s : State} (h : StatusInv s) (c : BitVec 4) : StatusInv (finish s c) where
  noError := by
    rw [finish_err, finish_errcode]
    split
    · exact h.noError
    · exact nofun
  running := nofun

theorem StatusInv.raise {s : State} (h : StatusInv s) (e : ErrorCode) : StatusInv (raise s e) := h.finish e.code

theorem StatusInv.setPhase {s : State} (h : StatusInv s) (p : Phase) : StatusInv (setPhase s p) := { h with }

theorem StatusInv.cipherAdvance {s : State} (h : StatusInv s) : StatusInv (cipherAdvance s) := by
  obtain ⟨-, ht⟩ | ⟨-, -, ht⟩ | ⟨-, -, ht⟩ := cipherAdvance_cases s <;> rw [ht]
  · exact h.finish 0
  · exact h.setPhase .gen
  · exact h.setPhase .rd

/-- A W1C write clears ERRCODE with ERR, and sets no bit (10_state.md R27). -/
theorem StatusInv.clearStatus {s : State} (h : StatusInv s) (v : Word) : StatusInv (clearStatus s v) where
  noError he := by
    rw [clearStatus_err] at he
    rw [clearStatus_errcode]
    split
    · rfl
    · next hv =>
      rw [Bool.eq_false_iff.mpr hv, Bool.not_false, Bool.and_true] at he
      exact h.noError he
  running hb := by
    obtain ⟨hdone, herr⟩ := h.running hb
    simp [hdone, herr]

theorem StatusInv.regEffect {s : State} (h : StatusInv s) (v : Word) (r : Reg) : StatusInv (regEffect s v r) := by
  cases r with
  | status => exact h.clearStatus v
  | cmd => exact ⟨fun _ => rfl, fun _ => ⟨rfl, rfl⟩⟩
  | _ => exact { h with }

theorem StatusInv.command {s t : State} {i : Instr} (h : StatusInv s) (he : CommandEffect s i t) : StatusInv t := by
  cases he with
  | fails _ e => exact h.raise e
  | nop => exact h.finish 0
  | init => exact StatusInv.finish (s := captureState s) { h with } 0
  | block dr => exact StatusInv.finish (s := generateBlock s dr) { h with } 0
  | blockInc dr => exact StatusInv.finish (s := counterIncrement (generateBlock s dr)) { h with } 0
  | zeroize => exact StatusInv.finish (s := zeroizeState s) { h with } 0
  | cipherEmpty => exact StatusInv.finish (s := cipherStart s) { h with } 0
  | cipherStores => exact StatusInv.cipherAdvance (s := cipherStore s) { h with }
  | cipherGenerates => exact ⟨by simpa using h.noError, by simpa using h.running⟩
  | cipherStarts | cipherFetches | cipherStalls => exact { h with }

theorem StatusInv.environment {s t : State} {m : Move} (h : StatusInv s) (he : EnvironmentEffect s m t) : StatusInv t := by
  cases he with
  | outside | dropped => exact { h with }
  | written _ r v => exact { h.regEffect v r with }
  | reset => exact ⟨fun _ => rfl, nofun⟩

/-- Settles O38: completion and acceptance set STATUS so, a W1C write clears ERRCODE with ERR, and no other step touches it. -/
theorem statusInvariantKept : Obligations.StatusInvariantKept := fun _ _ hs h =>
  step_keeps (P := StatusInv) (fun _ _ h => { h with }) (fun _ h => h.raise _)
    (fun _ _ _ h _ he => h.command (exec_effect he)) (fun s m h => h.environment (environmentMove_effect s m)) hs h

end Sys2Proof.Machine
end

section
/-! PROOF. The invariant of the engine, kept by every step. -/

namespace Sys2Proof.Machine

/-- What SVALID and CEXH say of STATE (10_state.md R40, R42, R43): the part of `EngineInv` about STATE. -/
structure StateWordsInv (s : State) : Prop where
  constants : s.svalid = true → s.state[0] = Config.const0 ∧ s.state[1] = Config.const1 ∧
    s.state[2] = Config.const2 ∧ s.state[3] = Config.const3
  cleared : s.svalid = false → s.state = Vector.replicate 16 0 ∧ s.cexh = false
  exhausted : s.cexh = true → s.state[12] = 0

theorem EngineInv.stateWords {s : State} (h : EngineInv s) : StateWordsInv s := { h with }

/-- At PHASE = CHECK no CIPHER is in progress. -/
theorem EngineInv.of_check {s : State} (hmem : s.mem.wf) (hstatus : StatusInv s) (hwords : StateWordsInv s)
    (hphase : s.phase = .check) : EngineInv s :=
  { hwords with memory := hmem, status := hstatus, idle := fun _ => hphase, cipher := fun hp => absurd hphase hp }

theorem EngineInv.of_progress {s : State} (hmem : s.mem.wf) (hstatus : StatusInv s) (hwords : StateWordsInv s)
    (hcipher : CipherProgress s) : EngineInv s :=
  { hwords with
    memory := hmem, status := hstatus, idle := fun hb => absurd hcipher.busy (by simp [hb]), cipher := fun _ => hcipher }

/-! STATE after each write of it. -/

theorem stateWordsInv_captureState (s : State) : StateWordsInv (captureState s) :=
  ⟨fun _ => ⟨rfl, rfl, rfl, rfl⟩, nofun, nofun⟩

theorem stateWordsInv_zeroizeState (s : State) : StateWordsInv (zeroizeState s) :=
  ⟨nofun, fun _ => ⟨rfl, rfl⟩, nofun⟩

/-- The increment sets CEXH exactly when word 12 wraps to 0 (42_keystream_commands.md R151). -/
theorem StateWordsInv.counterIncrement {s : State} (h : StateWordsInv s) (hv : s.svalid = true) (hc : s.cexh = false) :
    StateWordsInv (counterIncrement s) where
  constants _ := by simpa using h.constants hv
  cleared hn := absurd hv (by simpa using hn)
  exhausted hw := by
    have hlast : s.state[12] = 0xFFFFFFFF := by simpa [hc] using hw
    simp [hlast]

/-! The progress of a CIPHER from step to step. -/

/-- The chunk of CI is one that R153's checks allow for: the counter has not wrapped before it. -/
theorem CipherProgress.counter_lt {s : State} (h : CipherProgress s) : s.counter.toNat + s.ci / 64 < 2 ^ 32 := by
  obtain ⟨-, -, -, -, -, hcount⟩ := (cipherError_none s).mp h.checked
  have hindex := h.index
  unfold chunkCount at hcount
  omega

/-- One increment advances the stream state by one block (42_keystream_commands.md R151, R158). -/
theorem streamState_succ (s : State) (k : Nat) :
    (streamState s k).set 12 ((streamState s k)[12] + 1) = streamState s (k + 1) := by
  unfold streamState
  rw [initState_12, initState_set_12, BitVec.add_assoc]
  congr 2
  apply BitVec.eq_of_toNat_eq
  simp

/-- The counter word of the stream state is its last value exactly before the wrap. -/
theorem streamState_12_eq_last {s : State} {k : Nat} (h : s.counter.toNat + k < 2 ^ 32) :
    (streamState s k)[12] = 0xFFFFFFFF ↔ s.counter.toNat + (k + 1) = 2 ^ 32 := by
  show s.counter + BitVec.ofNat 32 k = 0xFFFFFFFF ↔ _
  rw [← BitVec.toNat_inj, BitVec.toNat_add, BitVec.toNat_ofNat]
  have : (0xFFFFFFFF : Word).toNat = 2 ^ 32 - 1 := rfl
  omega

/-- At GEN the block of CI's chunk is still to come, so the counter has not wrapped. -/
theorem CipherProgress.not_exhausted {s : State} (h : CipherProgress s) (hp : s.phase = .gen) : s.cexh = false := by
  have hlt := h.counter_lt
  rw [Bool.eq_false_iff, Ne, h.cexh, blocksGenerated, hp]
  exact Nat.ne_of_lt hlt

theorem CipherProgress.start {s : State} (hb : s.busy = true) (hw : s.curcmd = 0x00000003) (hc : cipherError s = none)
    (hl : s.len ≠ 0) : CipherProgress (setPhase (cipherStart s) .gen) := by
  have hblocks : blocksGenerated (setPhase (cipherStart s) .gen) = 0 := by simp [blocksGenerated]
  exact {
    busy := hb
    command := hw
    checked := hc
    index := Nat.pos_of_ne_zero fun h0 => hl (BitVec.eq_of_toNat_eq h0)
    chunkStart := fun _ => rfl
    svalid := rfl
    state := by simp [hblocks, streamState]
    cexh := by
      have hfits : s.counter.toNat + 0 ≠ 2 ^ 32 := Nat.ne_of_lt s.counter.isLt
      rw [hblocks]
      exact iff_of_false nofun hfits
    ks := fun hp => absurd rfl hp }

theorem CipherProgress.generate {s : State} (h : CipherProgress s) (hp : s.phase = .gen) : CipherProgress (cipherGen s) := by
  have hstate : s.state = streamState s (s.ci / 64) := by rw [h.state, blocksGenerated, hp]
  have hblocks : blocksGenerated (cipherGen s) = s.ci / 64 + 1 := by simp [blocksGenerated]
  have hstream : ∀ k, streamState (cipherGen s) k = streamState s k := by simp [streamState]
  exact {
    busy := by simpa using h.busy
    command := by simpa using h.command
    checked := by simpa [cipherError_none, chunkCount] using h.checked
    index := by simpa using h.index
    chunkStart := by simp
    svalid := by simpa using h.svalid
    state := by rw [cipherGen_state, hblocks, hstream, hstate, streamState_succ]
    cexh := by
      rw [cipherGen_cexh, hblocks, h.not_exhausted hp, Bool.false_or, beq_iff_eq, hstate, cipherGen_counter]
      exact streamState_12_eq_last h.counter_lt
    ks := fun _ => by rw [cipherGen_ks, cipherGen_ci, hstream, hstate] }

theorem CipherProgress.fetch {s : State} (h : CipherProgress s) (hp : s.phase = .rd) : CipherProgress (cipherFetch s) := by
  have hblocks : blocksGenerated (cipherFetch s) = blocksGenerated s := by simp [blocksGenerated, hp]
  exact { h with
    chunkStart := nofun
    state := by rw [hblocks]; exact h.state
    cexh := by rw [hblocks]; exact h.cexh
    ks := fun _ => h.ks (by simp [hp]) }

/-- After WR with bytes left, CIPHER goes on at GEN at the end of a chunk and at RD inside one (42_keystream_commands.md R161). -/
theorem CipherProgress.advance {s : State} {p : Phase} (h : CipherProgress s) (hp : s.phase = .wr)
    (hmore : s.ci + 1 ≠ s.len.toNat) (hnext : (s.ci + 1) % 64 = 0 ∧ p = .gen ∨ (s.ci + 1) % 64 ≠ 0 ∧ p = .rd) :
    CipherProgress (setPhase (cipherStore s) p) := by
  have hblocks : blocksGenerated (setPhase (cipherStore s) p) = blocksGenerated s := by
    obtain ⟨hend, rfl⟩ | ⟨hin, rfl⟩ := hnext <;> simp [blocksGenerated, hp] <;> omega
  exact { h with
    index := Nat.lt_of_le_of_ne h.index hmore
    chunkStart := fun hg => by
      obtain ⟨hend, -⟩ | ⟨-, rfl⟩ := hnext
      · exact hend
      · cases hg
    state := by rw [hblocks]; exact h.state
    cexh := by rw [hblocks]; exact h.cexh
    ks := fun hg => by
      obtain ⟨-, rfl⟩ | ⟨hin, rfl⟩ := hnext
      · exact absurd rfl hg
      · have hchunk : (s.ci + 1) / 64 = s.ci / 64 := by omega
        show s.ks = block (streamState s ((s.ci + 1) / 64)) Config.cipherDR
        rw [hchunk]
        exact h.ks (by simp [hp]) }

/-! The invariant from step to step. -/

theorem EngineInv.setSchedule {s : State} (h : EngineInv s) (rest : List Move) : EngineInv (setSchedule s rest) :=
  { h with status := { h.status with }, cipher := fun hp => { h.cipher hp with } }

/-- Completion ends at PHASE = CHECK and leaves STATE and memory (60_exceptions.md R205). -/
theorem EngineInv.finish {s : State} (h : EngineInv s) (c : BitVec 4) : EngineInv (finish s c) :=
  .of_check h.memory (h.status.finish c) { h.stateWords with } rfl

/-- A write of a register that is not write-protected leaves the CIPHER's progress. -/
theorem CipherProgress.regEffect {s : State} (h : CipherProgress s) (v : Word) {r : Reg} (hr : r.writeProtected = false) :
    CipherProgress (regEffect s v r) := by
  cases r with
  | cmd | counter | key | nonce | src | dst | len | dcap => cases hr
  | id | ctrl | status | loaded | sctr | ks | reserved => exact { h with }

@[simp] theorem regEffect_mem (s : State) (v : Word) (r : Reg) : (regEffect s v r).mem = s.mem := by cases r <;> rfl
@[simp] theorem regEffect_state (s : State) (v : Word) (r : Reg) : (regEffect s v r).state = s.state := by cases r <;> rfl
@[simp] theorem regEffect_svalid (s : State) (v : Word) (r : Reg) : (regEffect s v r).svalid = s.svalid := by cases r <;> rfl
@[simp] theorem regEffect_cexh (s : State) (v : Word) (r : Reg) : (regEffect s v r).cexh = s.cexh := by cases r <;> rfl

/-- A register write leaves PHASE; acceptance sets it to CHECK (60_exceptions.md R204). -/
theorem regEffect_phase (s : State) (v : Word) (r : Reg) : (regEffect s v r).phase = s.phase ∨ (regEffect s v r).phase = .check := by
  cases r with
  | cmd => exact .inr rfl
  | _ => exact .inl rfl

theorem EngineInv.regEffect {s : State} (h : EngineInv s) (v : Word) {r : Reg}
    (hok : s.busy = false ∨ r.writeProtected = false) : EngineInv (regEffect s v r) := by
  have hmem : (Machine.regEffect s v r).mem.wf := by simpa using h.memory
  have hstatus := h.status.regEffect v r
  have hwords : StateWordsInv (Machine.regEffect s v r) :=
    ⟨by simpa using h.constants, by simpa using h.cleared, by simpa using h.exhausted⟩
  by_cases hp : s.phase = .check
  · exact .of_check hmem hstatus hwords ((regEffect_phase s v r).elim (·.trans hp) id)
  · have hr : r.writeProtected = false := hok.resolve_left fun hb => hp (h.idle hb)
    exact .of_progress hmem hstatus hwords ((h.cipher hp).regEffect v hr)

theorem EngineInv.environment {s t : State} {m : Move} (h : EngineInv s) (hmem : t.mem.wf) (he : EnvironmentEffect s m t) :
    EngineInv t := by
  have hstatus := h.status.environment he
  cases he with
  | outside | dropped => exact { h with memory := hmem, status := hstatus, cipher := fun hp => { h.cipher hp with } }
  | written _ r v hok =>
    have hr := h.regEffect v hok
    exact { hr with status := hstatus, cipher := fun hp => { hr.cipher hp with } }
  | reset => exact .of_check hmem hstatus ⟨nofun, fun _ => ⟨rfl, rfl⟩, nofun⟩ rfl

theorem EngineInv.command {s t : State} {i : Instr} (h : EngineInv s) (hrun : Runs s i) (hmem : t.mem.wf)
    (he : CommandEffect s i t) : EngineInv t := by
  have hstatus := h.status.command he
  have hwords := h.stateWords
  cases he with
  | fails _ e => exact h.finish e.code
  | nop => exact h.finish 0
  | init => exact .of_check hmem hstatus { stateWordsInv_captureState s with } rfl
  | block dr => exact .of_check hmem hstatus { hwords with } rfl
  | blockInc dr hv hc =>
    have hblock : StateWordsInv (generateBlock s dr) := { hwords with }
    exact .of_check hmem hstatus { hblock.counterIncrement hv hc with } rfl
  | zeroize => exact .of_check hmem hstatus { stateWordsInv_zeroizeState s with } rfl
  | cipherEmpty => exact .of_check hmem hstatus { stateWordsInv_captureState s with } rfl
  | cipherStarts hp hc hl =>
    have hprogress := CipherProgress.start hrun.busy (decode_cipher_word (hrun.decoded hp)) hc hl
    exact .of_progress hmem hstatus { stateWordsInv_captureState s with } hprogress
  | cipherGenerates hp =>
    have hprogress := h.cipher (by simp [hp])
    have hcount := hwords.counterIncrement hprogress.svalid (hprogress.not_exhausted hp)
    have hgen : StateWordsInv (cipherGen s) :=
      ⟨by simpa using hcount.constants, by simpa using hcount.cleared, by simpa using hcount.exhausted⟩
    exact .of_progress hmem hstatus hgen (hprogress.generate hp)
  | cipherFetches hp => exact .of_progress hmem hstatus { hwords with } ((h.cipher (by simp [hp])).fetch hp)
  | cipherStores hp =>
    have hprogress := h.cipher (by simp [hp])
    obtain ⟨-, ht⟩ | ⟨hmore, hend, ht⟩ | ⟨hmore, hin, ht⟩ := cipherAdvance_cases (cipherStore s) <;>
      rw [ht] at hmem hstatus ⊢
    · exact .of_check hmem hstatus { hwords with } rfl
    · exact .of_progress hmem hstatus { hwords with } (hprogress.advance hp hmore (.inl ⟨hend, rfl⟩))
    · exact .of_progress hmem hstatus { hwords with } (hprogress.advance hp hmore (.inr ⟨hin, rfl⟩))
  | cipherStalls => exact h

/-- A command keeps memory in its canonical form: what it stores, it stores at an existing address (20_memory.md R60, R62). -/
theorem exec_mem_wf {i : Instr} {s t : State} (hs : s.mem.wf) (h : exec i s = .next t) : t.mem.wf := by
  obtain ht | ⟨-, -, hok, ht⟩ := exec_mem h <;> rw [ht]
  · exact hs
  · exact Memory.write_wf _ _ _ (addr_lt_of_ok hok) hs

/-- Settles O40: each command's step from PHASE to PHASE advances the CIPHER's progress, and no host move reaches what it reads. -/
theorem engineInvariantKept : Obligations.EngineInvariantKept := fun _ _ hs h =>
  step_keeps (P := EngineInv) (fun _ rest h => h.setSchedule rest) (fun _ h => h.finish _)
    (fun _ _ _ h hrun he => h.command hrun (exec_mem_wf h.memory he) (exec_effect he))
    (fun s m h => h.environment (environmentMove_mem_wf s m h.memory) (environmentMove_effect s m)) hs h

end Sys2Proof.Machine
end

section
/-! PROOF. What every step leaves of STATE (10_state.md R41) and LOADED (R29). -/

namespace Sys2Proof.Machine

/-- What a command's step does to STATE (R41). -/
theorem CommandEffect.state_cases {s t : State} {i : Instr} (he : CommandEffect s i t) :
    t.state = s.state ∨
      (t.state = s.state.set 12 (s.state[12] + 1) ∧ (s.phase = .gen ∨ ∃ dr, i = .block dr true)) ∨
      (t.state = initState s.key s.counter s.nonce ∧ (i = .init ∨ i = .cipher ∧ s.phase = .check)) ∨
      (t.state = Vector.replicate 16 0 ∧ i = .zeroize) := by
  cases he with
  | fails | nop | block | cipherFetches | cipherStalls => exact .inl rfl
  | init => exact .inr (.inr (.inl ⟨rfl, .inl rfl⟩))
  | blockInc dr => exact .inr (.inl ⟨rfl, .inr ⟨dr, rfl⟩⟩)
  | zeroize => exact .inr (.inr (.inr ⟨rfl, rfl⟩))
  | cipherEmpty hp | cipherStarts hp => exact .inr (.inr (.inl ⟨rfl, .inr ⟨rfl, hp⟩⟩))
  | cipherGenerates hp => exact .inr (.inl ⟨cipherGen_state s, .inl hp⟩)
  | cipherStores =>
    obtain ⟨-, ht⟩ | ⟨-, -, ht⟩ | ⟨-, -, ht⟩ := cipherAdvance_cases (cipherStore s) <;> rw [ht] <;> exact .inl rfl

/-- No move of another agent but a reset writes STATE. -/
theorem EnvironmentEffect.state_cases {s t : State} {m : Move} (he : EnvironmentEffect s m t) :
    t.state = s.state ∨ (m = .reset ∧ t.state = Vector.replicate 16 0) := by
  cases he with
  | outside | dropped => exact .inl rfl
  | written _ r v => exact .inl (regEffect_state s v r)
  | reset => exact .inr ⟨rfl, rfl⟩

/-- Settles O32: only the increments, the State Initializer's commands, ZEROIZE and a reset write STATE. -/
theorem stateChangesOnlyInCounter : Obligations.StateChangesOnlyInCounter := by
  intro s t h
  obtain ⟨rest, hmoves, rfl | ⟨-, rfl⟩ | ⟨i, hrun, he⟩⟩ | ⟨m, rest, hs, he⟩ := step_effect h
  · exact .inl rfl
  · exact .inl rfl
  · obtain hsame | ⟨hinc, hwhen⟩ | ⟨hcapture, hwhen⟩ | ⟨hzero, rfl⟩ := he.state_cases
    · exact .inl hsame
    · refine .inr (.inl ⟨⟨rest, hmoves⟩, hrun.busy, hinc, hwhen.imp_right ?_⟩)
      rintro ⟨dr, rfl⟩
      exact ⟨hrun.check nofun, dr, hrun.decoded (hrun.check nofun)⟩
    · refine .inr (.inr (.inl ⟨⟨rest, hmoves⟩, hrun.busy, hcapture, ?_⟩))
      obtain rfl | ⟨rfl, hp⟩ := hwhen
      · exact ⟨hrun.check nofun, .inl (hrun.decoded (hrun.check nofun))⟩
      · exact ⟨hp, .inr (hrun.decoded hp)⟩
    · have hp := hrun.check nofun
      exact .inr (.inr (.inr (.inl ⟨⟨rest, hmoves⟩, hrun.busy, hzero, hp, hrun.decoded hp⟩)))
  · obtain hsame | ⟨rfl, hzero⟩ := he.state_cases
    · exact .inl hsame
    · exact .inr (.inr (.inr (.inr ⟨hzero, by rw [hs]; rfl⟩)))

/-- No bit of LOADED that is set in `s` is clear in `t`. -/
structure LoadedKept (s t : State) : Prop where
  keyld : ∀ i, s.keyld.getLsbD i = true → t.keyld.getLsbD i = true
  nonceld : ∀ i, s.nonceld.getLsbD i = true → t.nonceld.getLsbD i = true

theorem LoadedKept.of_eq {s t : State} (hk : t.keyld = s.keyld) (hn : t.nonceld = s.nonceld) : LoadedKept s t :=
  ⟨fun _ h => hk ▸ h, fun _ h => hn ▸ h⟩

/-- A write of a key or nonce word sets a bit of LOADED; no other register write touches it (R29). -/
theorem loadedKept_regEffect (s : State) (v : Word) (r : Reg) : LoadedKept s (regEffect s v r) := by
  cases r with
  | key => exact ⟨fun i h => by simp [regEffect, h], fun _ h => h⟩
  | nonce => exact ⟨fun _ h => h, fun i h => by simp [regEffect, h]⟩
  | _ => exact .of_eq rfl rfl

/-- Only ZEROIZE among the commands writes LOADED (30_encoding.md R90). -/
theorem CommandEffect.loadedKept {s t : State} {i : Instr} (he : CommandEffect s i t) (hi : i ≠ .zeroize) : LoadedKept s t := by
  cases he with
  | zeroize => exact absurd rfl hi
  | cipherGenerates => exact .of_eq (cipherGen_keyld s) (cipherGen_nonceld s)
  | cipherStores =>
    obtain ⟨-, ht⟩ | ⟨-, -, ht⟩ | ⟨-, -, ht⟩ := cipherAdvance_cases (cipherStore s) <;> rw [ht] <;> exact .of_eq rfl rfl
  | _ => exact .of_eq rfl rfl

theorem EnvironmentEffect.loadedKept {s t : State} {m : Move} (he : EnvironmentEffect s m t) (hm : m ≠ .reset) :
    LoadedKept s t := by
  cases he with
  | outside | dropped => exact .of_eq rfl rfl
  | written _ r v => exact { loadedKept_regEffect s v r with }
  | reset => exact absurd rfl hm

/-- Settles O33: of all that a step can be, only ZEROIZE and a reset clear LOADED. -/
theorem loadedBitsStay : Obligations.LoadedBitsStay := by
  intro s t h hreset hzeroize
  have hkept : LoadedKept s t := by
    obtain ⟨rest, hmoves, rfl | ⟨-, rfl⟩ | ⟨i, hrun, he⟩⟩ | ⟨m, rest, hs, he⟩ := step_effect h
    · exact .of_eq rfl rfl
    · exact .of_eq rfl rfl
    · have hi : i ≠ .zeroize := by
        rintro rfl
        have hp := hrun.check nofun
        exact hzeroize ⟨⟨rest, hmoves⟩, hrun.busy, hp, hrun.decoded hp⟩
      exact { he.loadedKept hi with }
    · have hm : m ≠ .reset := by
        rintro rfl
        exact hreset (by rw [hs]; rfl)
      exact { he.loadedKept hm with }
  exact ⟨hkept.keyld, hkept.nonceld⟩

end Sys2Proof.Machine
end

section
/-! PROOF. Reads of the register window (10_state.md R20 to R37). -/

namespace Sys2Proof.Machine

/-! No register shows KEY (R32). -/

theorem regRead_withKey (s : State) (k : Vector Word 8) (r : Reg) :
    regRead { s with key := k } r = { regRead s r with key := k } := by
  have hvalue : regValue { s with key := k } r = regValue s r := by cases r <;> rfl
  unfold regRead
  rw [hvalue]
  show (if s.busy && r.drawnWhileBusy then _ else _) = _
  split <;> rfl

theorem busRead_withKey (s : State) (k : Vector Word 8) (addr bits : Nat) :
    busRead { s with key := k } addr bits = { busRead s addr bits with key := k } := by
  have hwindow : inWindow { s with key := k } addr = inWindow s addr := rfl
  unfold busRead
  rw [hwindow, regRead_withKey]
  split
  · rfl
  · split <;> rfl

/-- Settles O37: a bus read commutes with a change of KEY, its response included. -/
theorem keyIsNotReadable : Obligations.KeyIsNotReadable := by
  intro s k addr bits rest hs
  refine ⟨busRead (setSchedule s rest) addr bits, _, step_environment hs nofun, ?_, fun _ => rfl⟩
  have hread := busRead_withKey (setSchedule s rest) k addr bits
  exact (step_environment (s := { s with key := k }) hs nofun).trans (congrArg _ hread)

/-! Accesses that the window does not define (R21). -/

theorem busRead_undefined {s : State} {addr bits : Nat} (hwindow : inWindow s addr = true)
    (haccess : definedAccess addr bits = false) : busRead s addr bits = respond s .busError := by
  simp [busRead, hwindow, haccess]

theorem busWrite_undefined {s : State} {addr bits : Nat} (v : Word) (hwindow : inWindow s addr = true)
    (haccess : definedAccess addr bits = false) : busWrite s addr bits v = respond s .busError := by
  simp [busWrite, hwindow, haccess]

/-- Settles O46: the test of width and alignment comes before any register is looked at. -/
theorem undefinedAccessChangesNothing : Obligations.UndefinedAccessChangesNothing := by
  intro s addr bits v rest hlow hhigh hbad hs
  have hwindow : inWindow (setSchedule s rest) addr = true := by
    obtain ⟨o, rfl⟩ := Nat.exists_eq_add_of_le hlow
    exact inWindow_offset (s := s) (Nat.lt_of_add_lt_add_left hhigh)
  have haccess : definedAccess addr bits = false := by simpa [definedAccess] using hbad
  obtain hs | hs := hs <;> rw [step_environment hs nofun]
  · exact congrArg _ (busRead_undefined hwindow haccess)
  · exact congrArg _ (busWrite_undefined v hwindow haccess)

/-! The words that CTRL, LOADED, STATUS and KS read, field by field. -/

theorem ctrlWord_eq (s : State) : ctrlWord s = BitVec.ofNat 32 s.ie.toNat := by
  cases hie : s.ie <;> simp [ctrlWord, hie]

/-- Appended bits are the low digits of the number. -/
theorem toNat_append_eq {m n : Nat} (x : BitVec m) (y : BitVec n) : (x ++ y).toNat = 2 ^ n * x.toNat + y.toNat := by
  rw [BitVec.toNat_append, ← Nat.shiftLeft_add_eq_or_of_lt y.isLt, Nat.shiftLeft_eq, Nat.mul_comm]

/-- LOADED holds KEYLD from bit 0 and NONCELD from bit 8 (R29). -/
theorem loadedWord_eq (s : State) : loadedWord s = BitVec.ofNat 32 (s.keyld.toNat + 256 * s.nonceld.toNat) := by
  have hk := s.keyld.isLt
  have hn := s.nonceld.isLt
  apply BitVec.eq_of_toNat_eq
  simp only [loadedWord, toNat_append_eq, BitVec.toNat_ofNat]
  omega

/-- STATUS holds its flags at bits 0 to 5 and ERRCODE from bit 8 (R26). -/
theorem statusWord_eq (s : State) : statusWord s =
    BitVec.ofNat 32 (s.busy.toNat + 2 * s.done.toNat + 4 * s.err.toNat + 8 * s.busywr.toNat
      + 16 * s.svalid.toNat + 32 * s.cexh.toNat + 256 * s.errcode.toNat) := by
  have hcode := s.errcode.isLt
  have hbusy := s.busy.toNat_lt
  have hdone := s.done.toNat_lt
  have herr := s.err.toNat_lt
  have hbusywr := s.busywr.toNat_lt
  have hsvalid := s.svalid.toNat_lt
  have hcexh := s.cexh.toNat_lt
  apply BitVec.eq_of_toNat_eq
  simp only [statusWord, toNat_append_eq, BitVec.toNat_ofNat, BitVec.toNat_ofBool]
  omega

/-- A byte of a little-endian word (40_datapath.md R100, R101). -/
theorem leByte_leWord (b0 b1 b2 b3 : Byte) (i : Nat) (hi : i < 4) : leByte (leWord b0 b1 b2 b3) i = #v[b0, b1, b2, b3][i] := by
  have h0 := b0.isLt
  have h1 := b1.isLt
  have h2 := b2.isLt
  have h3 := b3.isLt
  apply BitVec.eq_of_toNat_eq
  simp only [leByte, leWord, BitVec.toNat_setWidth, BitVec.toNat_ushiftRight, BitVec.toNat_ofNat, Nat.shiftRight_eq_div_pow]
  interval_cases i <;> simp <;> omega

/-- Byte b of KS j is KS[4j + b] (R36). -/
theorem leByte_ksWord (s : State) (j : Fin 16) (b : Nat) (hb : b < 4) :
    leByte (ksWord s j) b = s.ks[4 * j.val + b]'(by omega) := by
  rw [ksWord, leByte_leWord _ _ _ _ b hb]
  interval_cases b <;> rfl

/-! The step that reads a register. -/

theorem HostReads.aligned {s : State} {o : Nat} {rest : List Move} (h : HostReads s o rest) : o % 4 = 0 := h.2.1

theorem HostWrites.aligned {s : State} {o : Nat} {v : Word} {rest : List Move} (h : HostWrites s o v rest) : o % 4 = 0 := h.2.1

@[simp] theorem regValue_setSchedule (s : State) (rest : List Move) (r : Reg) :
    regValue (setSchedule s rest) r = regValue s r := by
  cases r <;> rfl

/-- A read that is no draw changes nothing but the response (R37). -/
theorem step_reads {s : State} {o : Nat} {rest : List Move} {r : Reg} {w : Word} (h : HostReads s o rest)
    (hreg : regAt o = r) (hexact : s.busy = false ∨ r.drawnWhileBusy = false) (hvalue : regValue s r = w) :
    step s = .next { s with schedule := rest, resp := .data w } := by
  have hread : regRead (setSchedule s rest) r = _ := regRead_value hexact
  rw [step_hostReads h, hreg, hread, regValue_setSchedule, hvalue]
  rfl

/-- CMD, KEY and the reserved offsets read 0 (R28, R32, R37). -/
theorem regAt_reads_zero {o : Nat} (h4 : o % 4 = 0) (ho : o = 0x00C ∨ (0x020 ≤ o ∧ o < 0x040) ∨ ReservedOffset o) (s : State) :
    (regAt o).drawnWhileBusy = false ∧ regValue s (regAt o) = 0 := by
  obtain rfl | ⟨hlow, hhigh⟩ | ho := ho
  · exact ⟨rfl, rfl⟩
  · obtain ⟨i, hi, rfl⟩ : ∃ i, i < 8 ∧ o = 0x020 + 4 * i := ⟨(o - 0x020) / 4, by omega, by omega⟩
    rw [regAt_key i hi]
    exact ⟨rfl, rfl⟩
  · rw [regAt_reserved ho]
    exact ⟨rfl, rfl⟩

/-- Settles O53: each offset names its register, none of them is a draw, and the fields stand at their bits. -/
theorem registerReads : Obligations.RegisterReads := by
  intro s o rest h
  have hread {r : Reg} {w : Word} (hreg : regAt o = r) (hexact : r.drawnWhileBusy = false) (hvalue : regValue s r = w) :=
    step_reads h hreg (.inr hexact) hvalue
  refine ⟨?id, ?ctrl, ?status, ?loaded, ?counter, ?nonce0, ?nonce1, ?nonce2, ?src, ?dst, ?len, ?dcap, fun ho => ?zero⟩
  case zero =>
    obtain ⟨hexact, hvalue⟩ := regAt_reads_zero h.aligned ho s
    exact hread rfl hexact hvalue
  case ctrl => rintro rfl; exact hread (r := .ctrl) rfl rfl (ctrlWord_eq s)
  case status => rintro rfl; exact hread (r := .status) rfl rfl (statusWord_eq s)
  case loaded => rintro rfl; exact hread (r := .loaded) rfl rfl (loadedWord_eq s)
  all_goals rintro rfl; exact hread rfl rfl rfl

/-- SCTR and the KS registers are the draws of a read while BUSY = 1 (R31, R36). -/
theorem drawnWhileBusy_of_offset {o : Nat} (h4 : o % 4 = 0) (ho : o = 0x018 ∨ (0x100 ≤ o ∧ o < 0x140)) :
    (regAt o).drawnWhileBusy = true := by
  obtain rfl | ⟨hlow, hhigh⟩ := ho
  · rfl
  · obtain ⟨j, hj, rfl⟩ : ∃ j, j < 16 ∧ o = 0x100 + 4 * j := ⟨(o - 0x100) / 4, by omega, by omega⟩
    rw [regAt_ks j hj]
    rfl

/-- Settles O54: while idle these reads are the registers' values, while busy draws, and the registers take no write. -/
theorem keystreamReads : Obligations.KeystreamReads := by
  refine ⟨fun s o rest h ho => ⟨fun hbusy => ?drawn, fun hidle => ?exact⟩, fun s o v rest h ho => ?written⟩
  case drawn =>
    have hread : regRead (setSchedule s rest) (regAt o) = _ := regRead_drawn hbusy (drawnWhileBusy_of_offset h.aligned ho)
    rw [step_hostReads h, hread]
    rfl
  case exact =>
    refine ⟨regValue s (regAt o), step_reads h rfl (.inl hidle) rfl, ?_, fun j b hj hb hoffset => ?_⟩
    · rintro rfl
      rfl
    · rw [hoffset, regAt_ks j hj]
      exact leByte_ksWord s ⟨j, hj⟩ b hb
  case written =>
    have hoffset : UnwritableOffset o := by
      unfold UnwritableOffset
      omega
    rw [step_hostWrites h, regWrite_unwritable h.aligned hoffset]
    rfl

end Sys2Proof.Machine
end

section
/-! PROOF. Writes of the register window (10_state.md R20 to R37). -/

namespace Sys2Proof.Machine

/-- A write that is not dropped has its register's effect and is acknowledged (R22). -/
theorem step_writes {s : State} {o : Nat} {v : Word} {rest : List Move} (h : HostWrites s o v rest)
    (hok : s.busy = false ∨ (regAt o).writeProtected = false) :
    step s = .next (respond (regEffect (setSchedule s rest) v (regAt o)) .ack) := by
  have hwrite : regWrite (setSchedule s rest) (regAt o) v = _ := regWrite_effect hok
  rw [step_hostWrites h, hwrite]

/-- The W1C bits (R27). -/
theorem clearStatus_eq (s : State) (v : Word) : clearStatus s v = { s with
    done := if v.getLsbD 1 then false else s.done
    err := if v.getLsbD 2 then false else s.err
    errcode := if v.getLsbD 2 then 0 else s.errcode
    busywr := if v.getLsbD 3 then false else s.busywr } := by
  unfold clearStatus
  cases v.getLsbD 1 <;> cases v.getLsbD 2 <;> cases v.getLsbD 3 <;> simp

/-- Settles O47: STATUS, CTRL and what cannot be written are not write-protected; everything else depends on BUSY. -/
theorem writesWhileBusy : Obligations.WritesWhileBusy := by
  intro s o v rest h
  refine ⟨fun ho hbusy => ?dropped, ?ctrl, ?status, fun ho => ?unwritable, fun hok => ?effect⟩
  case dropped =>
    have hwrite : regWrite (setSchedule s rest) (regAt o) v = _ := regWrite_dropped hbusy (writeProtected_of_offset h.aligned ho)
    rw [step_hostWrites h, hwrite]
    rfl
  case ctrl =>
    rintro rfl
    exact step_writes h (.inr rfl)
  case status =>
    rintro rfl
    have heffect : regEffect (setSchedule s rest) v (regAt 0x008) = _ := clearStatus_eq (setSchedule s rest) v
    rw [step_writes h (.inr rfl), heffect]
    rfl
  case unwritable =>
    rw [step_hostWrites h, regWrite_unwritable h.aligned ho]
    rfl
  case effect => exact step_writes h (hok.imp_right not_writeProtected_of_offset)

/-- Settles O48: the STATUS clause of O47, and R26's invariant while BUSY = 1. -/
theorem statusWriteClears : Obligations.StatusWriteClears := by
  intro s v rest h
  obtain ⟨-, -, hstatus, -, -⟩ := writesWhileBusy s 0x008 v rest h
  refine ⟨hstatus rfl, fun hinv hbusy => ?_⟩
  obtain ⟨hdone, herr⟩ := hinv.running hbusy
  rw [hstatus rfl, hdone, herr, hinv.noError herr]
  simp only [ite_self]

/-- Settles O52: the effect of each of the five registers is to take the word. -/
theorem dataRegisterWrites : Obligations.DataRegisterWrites := by
  intro s o v rest h hidle
  have hwrite := step_writes h (.inl hidle)
  refine ⟨?_, ?_, ?_, ?_, ?_⟩ <;> rintro rfl <;> exact hwrite

/-- Setting bit i sets that bit and leaves the others. -/
theorem getLsbD_setBit {w : Nat} (x : BitVec w) (i j : Nat) (hj : j < w) :
    (x ||| 1#w <<< i).getLsbD j = true ↔ j = i ∨ x.getLsbD j = true := by
  rw [← BitVec.twoPow_eq, BitVec.getLsbD_or, BitVec.getLsbD_twoPow, Bool.or_eq_true, Bool.and_eq_true, decide_eq_true_eq,
    decide_eq_true_eq]
  have hbit : (i < w ∧ i = j) ↔ j = i := by omega
  rw [hbit, Or.comm]

/-- Settles O50: KEY i stands at its offset, and its write effect sets the word and its bit. -/
theorem keyWriteLoads : Obligations.KeyWriteLoads := by
  intro s i hi w rest h hidle
  refine ⟨_, step_writes h (.inl hidle), ?_⟩
  rw [regAt_key i hi]
  refine ⟨?_, fun j hj hne => ?_, fun j hj => getLsbD_setBit s.keyld i j hj, rfl⟩
  · exact Vector.getElem_set_self hi
  · exact Vector.getElem_set_ne hi hj hne.symm

/-- Settles O51: NONCE i stands at its offset, and its write effect sets the word and its bit. -/
theorem nonceWriteLoads : Obligations.NonceWriteLoads := by
  intro s i hi w rest h hidle
  refine ⟨_, step_writes h (.inl hidle), ?_⟩
  rw [regAt_nonce i hi]
  refine ⟨?_, fun j hj hne => ?_, fun j hj => getLsbD_setBit s.nonceld i j hj, rfl⟩
  · exact Vector.getElem_set_self hi
  · exact Vector.getElem_set_ne hi hj hne.symm

end Sys2Proof.Machine
end

section
/-! PROOF. The reset state (10_state.md R49). -/

namespace Sys2Proof.Machine

/-- Settles O44: the values of R49 are those of `State.reset`. -/
theorem resetValues : Obligations.ResetValues := by
  unfold Obligations.ResetValues
  decide

theorem statusInv_reset : StatusInv State.reset := ⟨fun _ => rfl, nofun⟩

/-- Settles O43: at reset the engine is idle at PHASE = CHECK with STATE cleared. -/
theorem resetMeetsInvariants : Obligations.ResetMeetsInvariants :=
  ⟨.of_check Memory.wf_nil statusInv_reset ⟨nofun, fun _ => ⟨rfl, rfl⟩, nofun⟩ rfl, statusInv_reset,
    ⟨nofun, fun hp => absurd rfl hp⟩⟩

end Sys2Proof.Machine
end

section
/-! PROOF. System memory: its canonical form, and what the engine's steps do to it (20_memory.md R60 to R62). -/

namespace Sys2Proof.Machine

/-- Settles O39: every store of a command or of a host is to an existing address, and no other move touches memory. -/
theorem memoryStaysCanonical : Obligations.MemoryStaysCanonical := fun _ _ hs h =>
  step_keeps (P := fun s => s.mem.wf) (fun _ _ h => h) (fun _ h => h) (fun _ _ _ h _ he => exec_mem_wf h he)
    environmentMove_mem_wf hs h

/-- A command reads every byte but the one at DST + CI as before (R61). -/
theorem exec_read_other {i : Instr} {s t : State} (h : exec i s = .next t) {a : Nat} (ha : a ≠ destAddr s) :
    t.mem.read a = s.mem.read a := by
  obtain ht | ⟨-, -, -, ht⟩ := exec_mem h <;> rw [ht]
  exact Memory.read_write_other s.mem _ a _ ha

/-- Only CIPHER's WR step draws, when the host has raced (R71). -/
theorem CommandEffect.draws_eq {s t : State} {i : Instr} (he : CommandEffect s i t) (hi : i ≠ .cipher ∨ s.phase ≠ .wr) :
    t.draws = s.draws := by
  cases he with
  | cipherStores hp => exact absurd hp (hi.resolve_left (absurd rfl))
  | cipherGenerates => exact cipherGen_draws s
  | _ => rfl

/-- Settles O30: the WR step is the only one that stores, and it stores at DST + CI. -/
theorem commandsLeaveMemory : Obligations.CommandsLeaveMemory := by
  intro i s t h
  refine ⟨fun hi => ⟨?mem, (exec_effect h).draws_eq hi⟩, fun a ha => exec_read_other h ha⟩
  obtain ht | ⟨hcipher, hp, -, -⟩ := exec_mem h
  · exact ht
  · exact hi.elim (absurd hcipher) (absurd hp)

/-- The engine's turn leaves memory, or is a command's step that stores at PHASE = WR (R61). -/
theorem engineTurn_mem {s t : State} (h : engineTurn s = .next t) :
    t.mem = s.mem ∨ (s.phase = .wr ∧ t.mem = s.mem.write (destAddr s) (outputByte s)) := by
  have hexec {i : Instr} (h : exec i s = .next t) :
      t.mem = s.mem ∨ (s.phase = .wr ∧ t.mem = s.mem.write (destAddr s) (outputByte s)) :=
    (exec_mem h).imp_right fun ⟨_, hp, _, ht⟩ => ⟨hp, ht⟩
  obtain ⟨-, rfl⟩ | ⟨-, -, i, -, h⟩ | ⟨-, -, -, rfl⟩ | ⟨-, -, h⟩ := engineTurn_cases h
  · exact .inl rfl
  · exact hexec h
  · exact .inl rfl
  · exact hexec (i := .cipher) h

/-- At WR the byte at DST + CI is one of the output buffer, since CI < LEN (42_keystream_commands.md R161). -/
theorem EngineInv.destAddr_mem {s : State} (h : EngineInv s) (hp : s.phase = .wr) :
    s.dst.toNat ≤ destAddr s ∧ destAddr s < s.dst.toNat + s.len.toNat := by
  have hindex := (h.cipher (by simp [hp])).index
  unfold destAddr
  omega

/-- Settles O31: the one byte a WR step stores lies in the output buffer. -/
theorem engineWritesOnlyOutputBuffer : Obligations.EngineWritesOnlyOutputBuffer := by
  intro s t rest hs hmoves h a ha
  rw [step_engine hmoves] at h
  obtain ht | ⟨hp, ht⟩ := engineTurn_mem h <;> rw [ht]
  · rfl
  · have hne : a ≠ destAddr s := fun heq => ha (heq ▸ hs.destAddr_mem hp)
    exact Memory.read_write_other s.mem _ a _ hne

/-! An access that memory does not answer (R62). -/

/-- At a PHASE other than CHECK the engine's turn is CIPHER's step (42_keystream_commands.md R161). -/
theorem engineTurn_cipher {s : State} (hb : s.busy = true) (hp : s.phase ≠ .check) : engineTurn s = execCipher s := by
  unfold engineTurn
  rw [if_pos hb]
  split
  · exact absurd ‹_› hp
  all_goals rfl

theorem dmaStep_unanswered {s : State} {k : AccessKind} {a : Nat} (h : Unanswered s k a) (done : State) :
    dmaStep s k a done = .next s := by
  rw [dmaStep, dmaAnswer_of_unanswered h]

/-- The engine's turn does not happen while its DMA access gets no answer (R62). -/
theorem engineTurn_unanswered {s : State} (hb : s.busy = true)
    (h : (s.phase = .rd ∧ Unanswered s .read (sourceAddr s)) ∨ (s.phase = .wr ∧ Unanswered s .write (destAddr s))) :
    engineTurn s = .next s := by
  obtain ⟨hp, hu⟩ | ⟨hp, hu⟩ := h <;> rw [engineTurn_cipher hb (by simp [hp]), execCipher, hp]
  · exact dmaStep_unanswered hu (cipherFetch s)
  · exact dmaStep_unanswered hu (cipherAdvance (cipherStore s))

/-- Settles O24: with the schedule moved on, the engine's turn does not happen. -/
theorem unansweredAccessStalls : Obligations.UnansweredAccessStalls := fun s rest hmoves hb hstall =>
  (step_engine hmoves).trans (engineTurn_unanswered (s := setSchedule s rest) hb hstall)

end Sys2Proof.Machine
end

section
/-! PROOF. The host's own accesses of system memory (20_memory.md R69) and its race with a CIPHER (R71). -/

namespace Sys2Proof.Machine

/-- A CIPHER runs from its acceptance to its completion (R71). -/
theorem cipherRunning_iff (s : State) : cipherRunning s = true ↔ s.busy = true ∧ s.curcmd = 0x00000003 := by
  simp [cipherRunning]

/-- No CIPHER runs while BUSY = 0 or another command word is current. -/
theorem cipherRunning_eq_false (s : State) : cipherRunning s = false ↔ s.busy = false ∨ s.curcmd ≠ 0x00000003 := by
  rw [← Bool.not_eq_true, cipherRunning_iff, not_and_or, Bool.not_eq_true]

theorem inDest_eq_false (s : State) (a : Nat) : inDest s a = false ↔ ¬(s.dst.toNat ≤ a ∧ a < s.dst.toNat + s.len.toNat) := by
  simp [inDest]

/-- A read after a write, in canonical memory. -/
theorem Memory.read_write {m : Memory} (h : m.wf) (a b : Nat) (v : Byte) :
    (m.write a v).read b = if b = a then v else m.read b := by
  split
  · next heq => rw [heq, Memory.read_write_same m a v h]
  · next hne => exact Memory.read_write_other m a b v hne

/-- A race leaves every byte outside the output buffer (R71). -/
theorem scramble_read_outside {s : State} {b : Nat} (hout : inDest s b = false) (m : Memory) (d : Nat) :
    (scramble m s.dst.toNat d s.len.toNat).read b = m.read b :=
  scramble_read_other m _ _ _ b ((inDest_eq_false s b).mp hout)

theorem hostStore_race {s : State} {a : BitVec 32} (v : Byte) (hrun : cipherRunning s = true)
    (ha : inSource s a.toNat = true ∨ inDest s a.toNat = true) :
    hostStore s a v = race (respond (storeByte s a.toNat v) .ack) := by
  simp [hostStore, hrun, ha]

theorem hostLoad_race {s : State} {a : BitVec 32} (hrun : cipherRunning s = true) (ha : inDest s a.toNat = true) :
    hostLoad s a = race (respond (countDraw s) (.byte (Config.draw8 s.draws))) := by
  simp [hostLoad, hrun, ha]

theorem hostStore_quiet {s : State} {a : BitVec 32} (v : Byte)
    (h : cipherRunning s = false ∨ (inSource s a.toNat = false ∧ inDest s a.toNat = false)) :
    hostStore s a v = respond (storeByte s a.toNat v) .ack := by
  obtain hrun | ⟨hsrc, hdst⟩ := h
  · simp [hostStore, hrun]
  · simp [hostStore, hsrc, hdst]

theorem hostLoad_quiet {s : State} {a : BitVec 32} (h : cipherRunning s = false ∨ inDest s a.toNat = false) :
    hostLoad s a = respond s (.byte (s.mem.read a.toNat)) := by
  obtain hrun | hdst := h
  · simp [hostLoad, hrun]
  · simp [hostLoad, hdst]

/-- Settles O26: the host's byte is stored first, and the race then draws every output byte. -/
theorem hostWriteRaces : Obligations.HostWriteRaces := by
  intro s a v rest hs hb hc hmem ha
  have hrun : cipherRunning (setSchedule s rest) = true := (cipherRunning_iff s).mpr ⟨hb, hc⟩
  have hstored : (s.mem.write a.toNat v).wf := Memory.write_wf _ _ _ a.isLt hmem
  have hstep := (step_environment hs nofun).trans (congrArg _ (hostStore_race v hrun ha))
  refine ⟨_, hstep, rfl, rfl, fun i hi haddr => scramble_read_drawn _ _ _ _ i hstored hi haddr, fun b hout => ?_, rfl⟩
  exact (scramble_read_outside hout _ _).trans (Memory.read_write hmem a.toNat b v)

/-- Settles O27: the read takes the first draw, and the race the ones after it. -/
theorem hostReadOfOutputRaces : Obligations.HostReadOfOutputRaces := by
  intro s a rest hs hb hc hmem ha
  have hrun : cipherRunning (setSchedule s rest) = true := (cipherRunning_iff s).mpr ⟨hb, hc⟩
  have hstep := (step_environment hs nofun).trans (congrArg _ (hostLoad_race hrun ha))
  exact ⟨_, hstep, rfl, rfl, rfl, fun i hi haddr => scramble_read_drawn _ _ _ _ i hmem hi haddr,
    fun b hout => scramble_read_outside hout _ _, rfl⟩

/-- Settles O28: the host's access is one byte of memory, and no race. -/
theorem hostMemoryAccess : Obligations.HostMemoryAccess := by
  refine ⟨fun s a v rest hs hmem h => ?store, fun s a rest hs h => ?load⟩
  case store =>
    have hquiet := (or_assoc.mpr h).imp_left (cipherRunning_eq_false s).mpr
    have hstep := (step_environment hs nofun).trans (congrArg _ (hostStore_quiet (s := setSchedule s rest) v hquiet))
    exact ⟨_, hstep, fun b => Memory.read_write hmem a.toNat b v, rfl⟩
  case load =>
    have hquiet := (or_assoc.mpr h).imp_left (cipherRunning_eq_false s).mpr
    exact (step_environment hs nofun).trans (congrArg _ (hostLoad_quiet (s := setSchedule s rest) hquiet))

end Sys2Proof.Machine
end

section
/-! PROOF. Command words (30_encoding.md R80 to R89): the decoder and the encoder are inverse, and 68 words are legal. -/

namespace Sys2Proof

/-- The decoder as one formula of the fields: `decode_cases` says all that it checks. -/
theorem decode_ok_iff {w : Word} {i : Instr} : decode w = .ok i ↔
    fieldRsv2 w = 0 ∧ fieldRsv1 w = 0 ∧ fieldRsv0 w = 0 ∧
      ((fieldOp w = 2 ∧ i = .block (fieldDr w).toNat (fieldInc w)) ∨
        (fieldDr w = 0 ∧ fieldInc w = false ∧
          ((fieldOp w = 0 ∧ i = .nop) ∨ (fieldOp w = 1 ∧ i = .init) ∨
            (fieldOp w = 3 ∧ i = .cipher) ∨ (fieldOp w = 4 ∧ i = .zeroize)))) := by
  refine ⟨decode_cases, ?_⟩
  rintro ⟨h2, h1, h0, ⟨ho, rfl⟩ | ⟨hd, hi, ⟨ho, rfl⟩ | ⟨ho, rfl⟩ | ⟨ho, rfl⟩ | ⟨ho, rfl⟩⟩⟩ <;>
    simp [decode, decodePlain, *]

/-! Decode of encode (R81, R89). -/

/-- The word of a BLOCK as a number (R89). -/
theorem encode_block_toNat {dr : Nat} (h : dr ≤ 31) (inc : Bool) :
    (encode (.block dr inc)).toNat = 2 + dr * 2 ^ 16 + inc.toNat * 2 ^ 8 := by
  have hinc := inc.toNat_lt
  exact Nat.mod_eq_of_lt (by omega)

/-- The word of a BLOCK holds its count and its INC flag, and no bit outside its fields (R81). -/
theorem decode_encode_block {dr : Nat} (h : dr ≤ 31) (inc : Bool) :
    decode (encode (.block dr inc)) = .ok (.block dr inc) := by
  have hword := encode_block_toNat h inc
  have hinc := inc.toNat_lt
  have hdr : (fieldDr (encode (.block dr inc))).toNat = dr := by rw [fieldDr_toNat]; omega
  have hbit : (fieldInc (encode (.block dr inc))).toNat = inc.toNat := by rw [fieldInc_toNat]; omega
  have hflag : fieldInc (encode (.block dr inc)) = inc := by rw [← Bool.ofNat_toNat (fieldInc _), hbit, Bool.ofNat_toNat]
  refine decode_ok_iff.mpr ⟨?rsv2, ?rsv1, ?rsv0, .inl ⟨?op, by rw [hdr, hflag]⟩⟩ <;>
    apply BitVec.eq_of_toNat_eq
  case rsv2 => rw [fieldRsv2_toNat]; change _ = 0; omega
  case rsv1 => rw [fieldRsv1_toNat]; change _ = 0; omega
  case rsv0 => rw [fieldRsv0_toNat]; change _ = 0; omega
  case op => exact Laws.OpField.block dr inc h

/-- Settles O1: only BLOCK's word depends on operands, and each of its fields reads back. -/
theorem decodeOfEncode : Obligations.DecodeOfEncode := by
  intro i hi
  cases i with
  | block dr inc => exact decode_encode_block hi inc
  | nop | init | cipher | zeroize => rfl

/-! Encode of decode (R84, R85). -/

/-- Settles O2: the fields that the decoder fixes are the whole word. -/
theorem encodeOfDecode : Obligations.EncodeOfDecode := by
  intro w i h
  obtain ⟨h2, h1, h0, ⟨ho, rfl⟩ | ⟨hd, hi, hop⟩⟩ := decode_cases h
  · exact ⟨Nat.le_of_lt_succ (fieldDr w).isLt, (word_of_fields h2 h1 h0 (congrArg BitVec.toNat ho) rfl rfl).symm⟩
  · have hword {op : BitVec 4} (ho : fieldOp w = op) :=
      word_of_fields h2 h1 h0 (congrArg BitVec.toNat ho) (congrArg BitVec.toNat hd) hi
    obtain ⟨ho, rfl⟩ | ⟨ho, rfl⟩ | ⟨ho, rfl⟩ | ⟨ho, rfl⟩ := hop <;> exact ⟨Nat.zero_le _, (hword ho).symm⟩

/-- The decoder answers exactly the well-formed commands, each for its own word. -/
theorem decode_eq_ok_iff_encode {w : Word} {i : Instr} : decode w = .ok i ↔ i.WellFormed ∧ encode i = w := by
  refine ⟨encodeOfDecode w i, ?_⟩
  rintro ⟨hi, rfl⟩
  exact decodeOfEncode i hi

/-! Legality (R84). -/

/-- R84's formula holds of the words that decode. -/
theorem legal_formula_iff (w : Word) :
    (fieldRsv2 w = 0 ∧ fieldRsv1 w = 0 ∧ fieldRsv0 w = 0 ∧
      (fieldOp w = 0 ∨ fieldOp w = 1 ∨ fieldOp w = 2 ∨ fieldOp w = 3 ∨ fieldOp w = 4) ∧
      (fieldOp w = 2 ∨ (fieldDr w = 0 ∧ fieldInc w = false))) ↔ ∃ i, decode w = .ok i := by
  simp only [decode_ok_iff]
  constructor
  · rintro ⟨h2, h1, h0, hop, hoperand⟩
    by_cases ho : fieldOp w = 2
    · exact ⟨_, h2, h1, h0, .inl ⟨ho, rfl⟩⟩
    · obtain ⟨hd, hi⟩ := hoperand.resolve_left ho
      obtain h | h | h | h | h := hop
      · exact ⟨.nop, h2, h1, h0, .inr ⟨hd, hi, .inl ⟨h, rfl⟩⟩⟩
      · exact ⟨.init, h2, h1, h0, .inr ⟨hd, hi, .inr (.inl ⟨h, rfl⟩)⟩⟩
      · exact absurd h ho
      · exact ⟨.cipher, h2, h1, h0, .inr ⟨hd, hi, .inr (.inr (.inl ⟨h, rfl⟩))⟩⟩
      · exact ⟨.zeroize, h2, h1, h0, .inr ⟨hd, hi, .inr (.inr (.inr ⟨h, rfl⟩))⟩⟩
  · rintro ⟨i, h2, h1, h0, ⟨ho, -⟩ | ⟨hd, hi, hop⟩⟩
    · exact ⟨h2, h1, h0, by simp [ho], .inl ho⟩
    · refine ⟨h2, h1, h0, ?_, .inr ⟨hd, hi⟩⟩
      obtain ⟨ho, -⟩ | ⟨ho, -⟩ | ⟨ho, -⟩ | ⟨ho, -⟩ := hop <;> simp [ho]

theorem legal_iff_decodes (w : Word) : legal w = true ↔ ∃ i, decode w = .ok i := by
  rw [← legal_formula_iff]
  simp [legal, and_assoc, or_assoc]

theorem decode_error_of_illegal {w : Word} (h : legal w = false) : ∃ e, decode w = .error e := by
  cases hd : decode w with
  | error e => exact ⟨e, rfl⟩
  | ok i =>
    rw [(legal_iff_decodes w).mpr ⟨i, hd⟩] at h
    cases h

/-! The list of the legal words (R89). -/

/-- `legalInstrs` lists the well-formed commands. -/
theorem mem_legalInstrs (i : Instr) : i ∈ legalInstrs ↔ i.WellFormed := by
  cases i with
  | block dr inc => cases inc <;> simp [legalInstrs, Instr.dr] <;> omega
  | nop | init | cipher | zeroize => decide

theorem legal_iff_mem (w : Word) : legal w = true ↔ w ∈ legalInstrs.map encode := by
  simp only [legal_iff_decodes, decode_eq_ok_iff_encode, List.mem_map, mem_legalInstrs]

theorem encode_injOn {i j : Instr} (hi : i.WellFormed) (hj : j.WellFormed) (h : encode i = encode j) : i = j := by
  have hd := decodeOfEncode i hi
  rw [h, decodeOfEncode j hj] at hd
  injection hd with hd
  exact hd.symm

theorem legalWords_nodup : (legalInstrs.map encode).Nodup := by
  refine List.Nodup.map_on (fun i hi j hj h => ?_) (by decide)
  exact encode_injOn ((mem_legalInstrs i).mp hi) ((mem_legalInstrs j).mp hj) h

/-- The word of a BLOCK with the shifts of R89's table. -/
theorem encode_block_eq_shifts (dr : Nat) (inc : Bool) : encode (.block dr inc) =
    0x00000002 + (BitVec.ofNat 32 dr <<< 16) + (BitVec.ofNat 32 inc.toNat <<< 8) := by
  simp only [encode, BitVec.ofNat_add, BitVec.ofNat_mul, BitVec.shiftLeft_eq_mul_twoPow]
  rfl

/-- Settles O4: the decoder answers the listed commands, each for its one word. -/
theorem sixtyEightLegalWords : Obligations.SixtyEightLegalWords := by
  have hplain (i : Instr) (hi : i.WellFormed) (w : Word) : decode w = .ok i ↔ w = encode i := by
    rw [decode_eq_ok_iff_encode, eq_comm (a := w)]
    exact and_iff_right hi
  refine ⟨rfl, legalWords_nodup, legal_iff_mem, hplain .nop (by decide), hplain .init (by decide),
    hplain .cipher (by decide), hplain .zeroize (by decide), fun w dr inc => ?_⟩
  rw [decode_eq_ok_iff_encode, encode_block_eq_shifts, eq_comm (a := w)]
  rfl

/-- Settles O5: the six words are those of `encode`; RSV2 is set in the seventh word, and INC in the word of an INIT. -/
theorem wordsWrittenOutDecode : Obligations.WordsWrittenOutDecode :=
  ⟨decodeOfEncode .nop (by decide), decodeOfEncode .init (by decide), decodeOfEncode (.block 10 false) (by decide),
    decodeOfEncode (.block 31 true) (by decide), decodeOfEncode .cipher (by decide), decodeOfEncode .zeroize (by decide),
    rfl, rfl⟩

end Sys2Proof
end

section
/-! PROOF. The engine's step on an illegal word (30_encoding.md R84). -/

namespace Sys2Proof.Machine

/-- At PHASE = CHECK the engine's turn is the dispatch of CURCMD (41_control_commands.md R133). -/
theorem engineTurn_check {s : State} (hb : s.busy = true) (hp : s.phase = .check) : engineTurn s = checkStep s := by
  rw [engineTurn, if_pos hb, hp]

/-- The dispatch of an illegal CURCMD is the completion with IllegalCommand (R133). -/
theorem checkStep_illegal {s : State} (hl : legal s.curcmd = false) : checkStep s = .next (raise s .illegalCommand) := by
  obtain ⟨e, he⟩ := decode_error_of_illegal hl
  rw [checkStep, he]

/-- `raise` at PHASE = CHECK touches STATUS alone (60_exceptions.md R206). -/
theorem raise_illegalCommand_of_check {s : State} (hp : s.phase = .check) :
    raise s .illegalCommand = { s with busy := false, done := true, err := true, errcode := 8 } := by
  show ({ s with busy := false, done := true, err := true, errcode := 8, phase := .check } : State) = _
  rw [← hp]

/-- Settles O3: legality is `legal_formula_iff`, and an illegal word's completion changes nothing but STATUS. -/
theorem illegalWordCompletes : Obligations.IllegalWordCompletes := by
  refine ⟨fun w => ⟨legal_formula_iff w, legal_iff_decodes w⟩, fun s rest hmoves hb hp hl => ?_⟩
  rw [step_engine hmoves, engineTurn_check (s := setSchedule s rest) hb hp, checkStep_illegal (s := setSchedule s rest) hl,
    raise_illegalCommand_of_check (s := setSchedule s rest) hp]
  rfl

end Sys2Proof.Machine
end

section
/-! PROOF. The assembler text of the commands (30_encoding.md R86, R87). -/

namespace Sys2Proof.Machine

/-- A count is read back from its digits, which hold no comma. -/
theorem countChars_read {n : Nat} (h : n ≤ 31) : numberValue (countChars n) = some n ∧ ',' ∉ countChars n := by
  revert n
  decide

theorem blockOf_countChars {dr : Nat} (h : dr ≤ 31) (inc : Bool) : blockOf (countChars dr) inc = some (.block dr inc) := by
  rw [blockOf, (countChars_read h).1]
  exact if_pos h

/-- A text without a comma, and what follows it from a comma on, are split at that comma. -/
theorem takeWhile_dropWhile_comma {cs : List Char} (h : ',' ∉ cs) (rest : List Char)
    (hrest : rest = [] ∨ ∃ r, rest = ',' :: r) :
    (cs ++ rest).takeWhile (· ≠ ',') = cs ∧ (cs ++ rest).dropWhile (· ≠ ',') = rest := by
  have hcs : ∀ c ∈ cs, (decide (c ≠ ',')) = true := fun c hc => decide_eq_true fun he => h (he ▸ hc)
  rw [List.takeWhile_append_of_pos hcs, List.dropWhile_append_of_pos hcs]
  obtain rfl | ⟨r, rfl⟩ := hrest <;> simp

theorem parseCommand_block {dr : Nat} (h : dr ≤ 31) (inc : Bool) :
    parseCommand (commandText (.block dr inc)) = some (.block dr inc) := by
  have hcomma := (countChars_read h).2
  cases inc with
  | false =>
    obtain ⟨-, hdrop⟩ := takeWhile_dropWhile_comma hcomma [] (.inl rfl)
    rw [List.append_nil] at hdrop
    simp only [commandText, List.cons_append, List.nil_append, parseCommand, hdrop, blockOf_countChars h, if_true]
  | true =>
    obtain ⟨htake, hdrop⟩ := takeWhile_dropWhile_comma hcomma [',', ' ', 'i', 'n', 'c'] (.inr ⟨_, rfl⟩)
    simp only [commandText, List.cons_append, List.nil_append, parseCommand, hdrop, htake, blockOf_countChars h, if_true]
    rfl

/-- Settles O6: only BLOCK's text depends on operands, and its count stands between `dr=` and the comma or the end. -/
theorem assemblerReadsItsText : Obligations.AssemblerReadsItsText := by
  refine ⟨fun i hi => ?_, rfl, rfl⟩
  cases i with
  | block dr inc => exact parseCommand_block hi inc
  | nop | init | cipher | zeroize => rfl

end Sys2Proof.Machine
end

section
/-! PROOF. The registers that the commands leave as they are (30_encoding.md R90). -/

namespace Sys2Proof.Machine

/-- The registers that no command writes (R90), the platform, and what the other agents have of the state. -/
structure CommandFrame (s t : State) : Prop where
  ie : t.ie = s.ie
  busywr : t.busywr = s.busywr
  counter : t.counter = s.counter
  src : t.src = s.src
  dst : t.dst = s.dst
  len : t.len = s.len
  dcap : t.dcap = s.dcap
  curcmd : t.curcmd = s.curcmd
  base : t.base = s.base
  memBad : t.memBad = s.memBad
  memSilent : t.memSilent = s.memSilent
  schedule : t.schedule = s.schedule
  resp : t.resp = s.resp
  raced : t.raced = s.raced

theorem CommandFrame.refl (s : State) : CommandFrame s s := by constructor <;> rfl

theorem CommandEffect.frame {s t : State} {i : Instr} (he : CommandEffect s i t) : CommandFrame s t := by
  cases he with
  | cipherGenerates => constructor <;> simp
  | cipherStores =>
    obtain ⟨-, ht⟩ | ⟨-, -, ht⟩ | ⟨-, -, ht⟩ := cipherAdvance_cases (cipherStore s) <;> rw [ht] <;>
      exact { CommandFrame.refl s with }
  | _ => exact { CommandFrame.refl s with }

/-- Only ZEROIZE writes KEY, NONCE and LOADED (R90). -/
theorem CommandEffect.keys_eq {s t : State} {i : Instr} (he : CommandEffect s i t) (hi : i ≠ .zeroize) :
    t.key = s.key ∧ t.nonce = s.nonce ∧ t.keyld = s.keyld ∧ t.nonceld = s.nonceld := by
  cases he with
  | zeroize => exact absurd rfl hi
  | cipherGenerates => simp
  | cipherStores =>
    obtain ⟨-, ht⟩ | ⟨-, -, ht⟩ | ⟨-, -, ht⟩ := cipherAdvance_cases (cipherStore s) <;> rw [ht] <;>
      exact ⟨rfl, rfl, rfl, rfl⟩
  | _ => exact ⟨rfl, rfl, rfl, rfl⟩

/-- Settles O29: each way a command ends leaves these registers. -/
theorem commandsLeaveRegisters : Obligations.CommandsLeaveRegisters := by
  intro i s t h
  have he := exec_effect h
  have hf := he.frame
  exact ⟨hf.ie, hf.busywr, hf.counter, hf.src, hf.dst, hf.len, hf.dcap, hf.curcmd, hf.base, hf.memBad, hf.memSilent,
    hf.schedule, hf.resp, hf.raced, he.keys_eq⟩

end Sys2Proof.Machine
end

section
/-! PROOF. The Endian Codec (40_datapath.md R100, R101) and the State Initializer (R109 to R111). -/

namespace Sys2Proof.Machine

/-- The bytes of a word fit in 32 bits, so nothing of their weighted sum is cut off (R101). -/
theorem leWord_toNat (b0 b1 b2 b3 : Byte) :
    (leWord b0 b1 b2 b3).toNat = b0.toNat + 2 ^ 8 * b1.toNat + 2 ^ 16 * b2.toNat + 2 ^ 24 * b3.toNat := by
  have h0 := b0.isLt
  have h1 := b1.isLt
  have h2 := b2.isLt
  have h3 := b3.isLt
  exact Nat.mod_eq_of_lt (by omega)

theorem leByte_toNat (w : Word) (i : Nat) : (leByte w i).toNat = w.toNat / 2 ^ (8 * i) % 2 ^ 8 := by
  rw [leByte, BitVec.toNat_setWidth, BitVec.toNat_ushiftRight, Nat.shiftRight_eq_div_pow]

@[simp] theorem leBytes_get (w : Word) (i : Nat) (h : i < 4) : (leBytes w)[i] = leByte w i := by
  simp [leBytes]

theorem leWord_leByte (w : Word) : leWord (leByte w 0) (leByte w 1) (leByte w 2) (leByte w 3) = w := by
  have hw := w.isLt
  apply BitVec.eq_of_toNat_eq
  simp only [leWord_toNat, leByte_toNat]
  omega

theorem leBytes_leWord (b0 b1 b2 b3 : Byte) : leBytes (leWord b0 b1 b2 b3) = #v[b0, b1, b2, b3] := by
  ext i hi : 1
  rw [leBytes_get, leByte_leWord b0 b1 b2 b3 i hi]

/-- Settles O56: a word is the weighted sum of its four bytes, and they are its digits to base 2^8. -/
theorem endianCodecInverse : Obligations.EndianCodecInverse := by
  refine ⟨leWord_toNat, fun w => ?_, leBytes_leWord, rfl⟩
  simp only [leBytes_get]
  exact leWord_leByte w

/-- The word built from four bytes in a row holds them in their order (R111). -/
theorem leByte_leWord_slice {n : Nat} (bytes : Vector Byte n) (k j : Nat) (hk : k + 3 < n) (hj : j < 4) :
    leByte (leWord bytes[k] bytes[k + 1] bytes[k + 2] bytes[k + 3]) j = bytes[k + j] := by
  rw [leByte_leWord _ _ _ _ j hj]
  interval_cases j <;> rfl

theorem keyWords_byte (bytes : Vector Byte 32) (i j : Nat) (hi : i < 8) (hj : j < 4) :
    leByte (keyWords bytes)[i] j = bytes[4 * i + j] := by
  rw [keyWords, Vector.getElem_ofFn]
  exact leByte_leWord_slice bytes (4 * i) j (by omega) hj

theorem nonceWords_byte (bytes : Vector Byte 12) (i j : Nat) (hi : i < 3) (hj : j < 4) :
    leByte (nonceWords bytes)[i] j = bytes[4 * i + j] := by
  rw [nonceWords, Vector.getElem_ofFn]
  exact leByte_leWord_slice bytes (4 * i) j (by omega) hj

theorem initState_key (k : Vector Word 8) (c : Word) (n : Vector Word 3) (i : Nat) (hi : i < 8) :
    (initState k c n)[4 + i] = k[i] := by
  interval_cases i <;> rfl

theorem initState_nonce (k : Vector Word 8) (c : Word) (n : Vector Word 3) (i : Nat) (hi : i < 3) :
    (initState k c n)[13 + i] = n[i] := by
  interval_cases i <;> rfl

/-- Settles O60: the words lie as R110 lists them, and each key or nonce word is built from four bytes in a row. -/
theorem initializerLayout : Obligations.InitializerLayout := by
  refine ⟨fun k c n => ⟨initState_key k c n, initState_12 k c n, initState_nonce k c n, initState_0 k c n,
    initState_1 k c n, initState_2 k c n, initState_3 k c n⟩, fun bytes i j hi hj => ?_, fun bytes i j hi hj => ?_⟩
  · rw [leBytes_get]
    exact keyWords_byte bytes i j hi hj
  · rw [leBytes_get]
    exact nonceWords_byte bytes i j hi hj

end Sys2Proof.Machine
end

section
/-! PROOF. Bit Rotation (40_datapath.md R102). -/

namespace Sys2Proof.Machine

/-- On R102's domain `rotl32` is the library's rotation: at n = 0 R102 shifts right by 0 bits and the library by all 32, and both
give x. -/
theorem rotl32_eq_rotateLeft (x : Word) {n : Nat} (hn : n ≤ 31) : rotl32 x n = x.rotateLeft n := by
  rw [rotl32, BitVec.rotateLeft_def]
  obtain rfl | hpos := Nat.eq_zero_or_pos n
  · simp [BitVec.ushiftRight_eq_zero (x := x) (Nat.le_refl 32)]
  · have hleft : n % 32 = n := by omega
    have hright : (32 - n) % 32 = 32 - n := by omega
    rw [hleft, hright]

@[simp] theorem rotl32_zero_right (x : Word) : rotl32 x 0 = x := by
  simp [rotl32]

@[simp] theorem rotl32_zero_left (n : Nat) : rotl32 0#32 n = 0#32 := by
  simp [rotl32]

/-- Bit j moves up by n places, round the top end (R102). -/
theorem rotl32_getLsbD (x : Word) {n j : Nat} (hn : n ≤ 31) (hj : j < 32) :
    (rotl32 x n).getLsbD ((j + n) % 32) = x.getLsbD j := by
  rw [rotl32_eq_rotateLeft x hn, BitVec.getLsbD_rotateLeft, Nat.mod_eq_of_lt (Nat.lt_succ_of_le hn)]
  obtain hfits | hwraps := Nat.lt_or_ge (j + n) 32
  · have hbit : (j + n) % 32 = j + n := Nat.mod_eq_of_lt hfits
    simp [hbit, hfits]
  · have hbit : (j + n) % 32 = j + n - 32 := by omega
    have hlow : j + n - 32 < n := by omega
    have hfrom : 32 - n + (j + n - 32) = j := by omega
    simp [hbit, hlow, hfrom]

/-- R102 writes the right shift's count as -n mod 32. -/
theorem rotl32_eq_shifts (x : Word) {n : Nat} (hn : n ≤ 31) :
    rotl32 x n = (x <<< n) ||| (x >>> ((-(n : Int)) % 32).toNat) := by
  have hcount : ((-(n : Int)) % 32).toNat = (32 - n) % 32 := by omega
  rw [rotl32, hcount]

/-- Settles O57: each bit of the rotation is followed to its place. -/
theorem rotationIsCircular : Obligations.RotationIsCircular :=
  ⟨fun x _ _ hn hj => rotl32_getLsbD x hn hj, fun x _ hn => rotl32_eq_shifts x hn, rotl32_zero_right, rfl, rfl⟩

end Sys2Proof.Machine
end

section
/-! PROOF. The Quarter Round (40_datapath.md R104). -/

namespace Sys2Proof.Machine

/-- One line of the Quarter Round on four words with the values `x`, `y`, `z` and `w`; it leaves the word at `c` (R104). -/
theorem addXorRotate_words {s : Vector Word 16} {a b c d : Fin 16} {x y z w : Word} (n : Nat)
    (hdistinct : [a, b, c, d].Nodup) (ha : s[a] = x) (hb : s[b] = y) (hc : s[c] = z) (hd : s[d] = w) :
    (addXorRotate s a b d n)[a] = x + y ∧ (addXorRotate s a b d n)[b] = y ∧ (addXorRotate s a b d n)[c] = z ∧
      (addXorRotate s a b d n)[d] = rotl32 (w ^^^ (x + y)) n := by
  simp only [List.nodup_cons, List.mem_cons, List.not_mem_nil, or_false, not_or] at hdistinct
  obtain ⟨⟨hab, hac, had⟩, ⟨-, hbd⟩, hcd, -⟩ := hdistinct
  rw [addXorRotate_sum s a b d n had, addXorRotate_other s a b d n b (Ne.symm hab) hbd,
    addXorRotate_other s a b d n c (Ne.symm hac) hcd, addXorRotate_rot s a b d n had, ha, hb, hc, hd]
  exact ⟨rfl, rfl, rfl, rfl⟩

theorem qr_other (s : Vector Word 16) {a b c d i : Fin 16} (ha : i ≠ a) (hb : i ≠ b) (hc : i ≠ c) (hd : i ≠ d) :
    (qr s a b c d)[i] = s[i] := by
  rw [qr, addXorRotate_other _ c d b 7 i hc hb, addXorRotate_other _ a b d 8 i ha hd,
    addXorRotate_other _ c d b 12 i hc hb, addXorRotate_other _ a b d 16 i ha hd]

/-- A line takes zeros to zeros, whatever its indices. -/
@[simp] theorem addXorRotate_zeros (a b d : Fin 16) (n : Nat) :
    addXorRotate (Vector.replicate 16 0) a b d n = Vector.replicate 16 0 := by
  simp [addXorRotate]

@[simp] theorem qr_zeros (a b c d : Fin 16) : qr (Vector.replicate 16 0) a b c d = Vector.replicate 16 0 := by
  simp only [qr, addXorRotate_zeros]

/-- Settles O58: each of the four lines reads the words the lines before it wrote. -/
theorem quarterRoundWords : Obligations.QuarterRoundWords := by
  refine ⟨fun s a b c d hab hac had hbc hbd hcd => ⟨?words, fun i => qr_other s⟩, qr_zeros, by decide⟩
  rintro _ _ _ _ _ _ _ _ rfl rfl rfl rfl rfl rfl rfl rfl
  have habcd : [a, b, c, d].Nodup := by simp [hab, hac, had, hbc, hbd, hcd]
  have hcdab : [c, d, a, b].Nodup := by simp [hab, hac.symm, had.symm, hbc.symm, hbd.symm, hcd]
  obtain ⟨ha1, hb1, hc1, hd1⟩ := addXorRotate_words 16 habcd (s := s) rfl rfl rfl rfl
  obtain ⟨hc2, hd2, ha2, hb2⟩ := addXorRotate_words 12 hcdab hc1 hd1 ha1 hb1
  obtain ⟨ha3, hb3, hc3, hd3⟩ := addXorRotate_words 8 habcd ha2 hb2 hc2 hd2
  obtain ⟨hc4, hd4, ha4, hb4⟩ := addXorRotate_words 7 hcdab hc3 hd3 ha3 hb3
  exact ⟨ha4, hb4, hc4, hd4⟩

end Sys2Proof.Machine
end

section
/-! PROOF. The double round (40_datapath.md R105). -/

namespace Sys2Proof.Machine

/-- `s[a] <- f(s[a], s[b])`: one half of a line of the Quarter Round (R104). -/
def updateWord (f : Word → Word → Word) (a b : Fin 16) (s : Vector Word 16) : Vector Word 16 := s.set a (f s[a] s[b])

/-- A line is an addition and then an exclusive-or with a rotation (R104). -/
theorem addXorRotate_eq_updates (s : Vector Word 16) (a b d : Fin 16) (n : Nat) :
    addXorRotate s a b d n = updateWord (fun x y => rotl32 (x ^^^ y) n) d a (updateWord (· + ·) a b s) := rfl

/-- Two updates commute when neither writes a word of the other. -/
theorem updateWord_comm (f g : Word → Word → Word) (s : Vector Word 16) {a b a' b' : Fin 16} (haa : a ≠ a') (hab : a ≠ b')
    (hba : b ≠ a') : updateWord g a' b' (updateWord f a b s) = updateWord f a b (updateWord g a' b' s) := by
  simp only [updateWord, Fin.getElem_fin]
  rw [Vector.getElem_set_ne _ _ (Fin.val_ne_of_ne haa), Vector.getElem_set_ne _ _ (Fin.val_ne_of_ne hab),
    Vector.getElem_set_ne _ _ (Fin.val_ne_of_ne haa.symm), Vector.getElem_set_ne _ _ (Fin.val_ne_of_ne hba.symm)]
  exact Vector.set_comm _ _ (Fin.val_ne_of_ne haa)

/-- Two lines that share no word commute. -/
theorem addXorRotate_comm (s : Vector Word 16) {a b d a' b' d' : Fin 16} (n n' : Nat)
    (h : List.Disjoint [a, b, d] [a', b', d']) :
    addXorRotate (addXorRotate s a b d n) a' b' d' n' = addXorRotate (addXorRotate s a' b' d' n') a b d n := by
  simp only [List.disjoint_cons_left, List.disjoint_nil_left, List.mem_cons, List.not_mem_nil, or_false, not_or,
    and_true] at h
  obtain ⟨⟨haa, hab, had⟩, ⟨hba, -, hbd⟩, hda, hdb, hdd⟩ := h
  simp only [addXorRotate_eq_updates]
  rw [updateWord_comm _ _ _ hda hdb haa, updateWord_comm _ _ _ haa hab hba, updateWord_comm _ _ _ hdd hda had,
    updateWord_comm _ _ _ had haa hbd]

/-- What commutes with every line on the words of a quarter round commutes with the quarter round. -/
theorem qr_comm_of_lines {g : Vector Word 16 → Vector Word 16} {a b c d : Fin 16}
    (hline : ∀ s x y z n, [x, y, z] ⊆ [a, b, c, d] → g (addXorRotate s x y z n) = addXorRotate (g s) x y z n)
    (s : Vector Word 16) : g (qr s a b c d) = qr (g s) a b c d := by
  have habd : [a, b, d] ⊆ [a, b, c, d] := by simp
  have hcdb : [c, d, b] ⊆ [a, b, c, d] := by simp
  simp only [qr, hline _ _ _ _ _ habd, hline _ _ _ _ _ hcdb]

/-- Two quarter rounds that share no word commute (R105). -/
theorem qr_comm (s : Vector Word 16) {a b c d a' b' c' d' : Fin 16} (h : List.Disjoint [a, b, c, d] [a', b', c', d']) :
    qr (qr s a b c d) a' b' c' d' = qr (qr s a' b' c' d') a b c d := by
  refine qr_comm_of_lines (g := fun t => qr t a' b' c' d') (fun t x y z n hxyz => ?line) s
  refine (qr_comm_of_lines (g := fun t => addXorRotate t x y z n) (fun t x' y' z' n' hxyz' => ?lines) t).symm
  exact addXorRotate_comm t n' n (List.disjoint_of_subset_left hxyz' (List.disjoint_of_subset_right hxyz h.symm))

theorem doubleRound_zeros : doubleRound (Vector.replicate 16 0) = Vector.replicate 16 0 := by
  simp only [doubleRound, diagonalRound, columnRound, qr_zeros]

/-- The k-th of the four column groups (R105). -/
def columnGroup (s : Vector Word 16) (k : Fin 4) : Vector Word 16 :=
  qr s ⟨k.val, by omega⟩ ⟨4 + k.val, by omega⟩ ⟨8 + k.val, by omega⟩ ⟨12 + k.val, by omega⟩

/-- The k-th of the four diagonal groups (R105). -/
def diagonalGroup (s : Vector Word 16) (k : Fin 4) : Vector Word 16 :=
  qr s ⟨k.val, by omega⟩ ⟨4 + (k.val + 1) % 4, by omega⟩ ⟨8 + (k.val + 2) % 4, by omega⟩ ⟨12 + (k.val + 3) % 4, by omega⟩

theorem columnRound_eq_groups (s : Vector Word 16) :
    columnRound s = columnGroup (columnGroup (columnGroup (columnGroup s 0) 1) 2) 3 := rfl

theorem diagonalRound_eq_groups (s : Vector Word 16) :
    diagonalRound s = diagonalGroup (diagonalGroup (diagonalGroup (diagonalGroup s 0) 1) 2) 3 := rfl

/-- Two column groups share no word, so they commute (R105). -/
theorem columnGroup_comm (s : Vector Word 16) {i j : Fin 4} (h : i ≠ j) :
    columnGroup (columnGroup s i) j = columnGroup (columnGroup s j) i := by
  refine qr_comm s (List.disjoint_iff_ne.mpr ?_)
  revert i j
  decide

/-- Two diagonal groups share no word, so they commute (R105). -/
theorem diagonalGroup_comm (s : Vector Word 16) {i j : Fin 4} (h : i ≠ j) :
    diagonalGroup (diagonalGroup s i) j = diagonalGroup (diagonalGroup s j) i := by
  refine qr_comm s (List.disjoint_iff_ne.mpr ?_)
  revert i j
  decide

/-- An array with one bit set, on which the order of the halves shows. -/
theorem diagonalRound_columnRound_ne : diagonalRound (columnRound ((Vector.replicate 16 0).set 0 1)) ≠
    columnRound (diagonalRound ((Vector.replicate 16 0).set 0 1)) := by
  decide

/-- Settles O59: the groups of one half share no word, and an array with one bit set tells the orders of the halves apart. -/
theorem doubleRoundOrder : Obligations.DoubleRoundOrder := by
  refine ⟨fun s i j hij => ⟨columnGroup_comm s hij, diagonalGroup_comm s hij, ?halves⟩, ⟨_, diagonalRound_columnRound_ne⟩,
    doubleRound_zeros⟩
  rw [doubleRound, columnRound_eq_groups, diagonalRound_eq_groups]
  rfl

end Sys2Proof.Machine
end

section
/-! PROOF. BLOCK20.INC and the keystream (40_datapath.md R112, 42_keystream_commands.md R150, R151, R164). -/

namespace Sys2Proof.Machine

/-- BLOCK when both of R150's checks pass. -/
theorem exec_block_of_checks {s : State} (hvalid : s.svalid = true) (hleft : s.cexh = false) (dr : Nat) (inc : Bool) :
    exec (.block dr inc) s =
      .next (finish (if inc then counterIncrement (generateBlock s dr) else generateBlock s dr) 0) := by
  cases inc <;> simp [execBlock, hvalid, hleft]

/-- Keystream chunk n is the block for counter c + n (R112). -/
theorem keystream_chunk (k : Vector Word 8) (c : Word) (nn : Vector Word 3) (n p : Nat) (hp : p < 64) :
    keystream k c nn (64 * n + p) = (block (initState k (c + BitVec.ofNat 32 n) nn) Config.cipherDR)[p] := by
  have hchunk : (64 * n + p) / 64 = n := by omega
  have hbyte : (64 * n + p) % 64 = p := by omega
  simp only [keystream, hchunk, hbyte]

/-- The increment makes the State of one counter the State of the next (R151). -/
theorem initState_increment (k : Vector Word 8) (c : Word) (nn : Vector Word 3) (n : Nat) :
    (initState k (c + BitVec.ofNat 32 n) nn).set 12 ((initState k (c + BitVec.ofNat 32 n) nn)[12] + 1) =
      initState k (c + BitVec.ofNat 32 (n + 1)) nn := by
  rw [initState_12, initState_set_12, BitVec.add_assoc, BitVec.ofNat_add]
  rfl

/-- Settles O16: the block comes before the increment, so KS is of counter c + n and STATE is left for the next. -/
theorem blockGivesKeystreamChunk : Obligations.BlockGivesKeystreamChunk := by
  intro s k c nn n hvalid hleft hstate
  refine ⟨_, exec_block_of_checks hvalid hleft 10 true, fun p hp => ?ks, ?state⟩
  case ks =>
    simp only [if_true, finish_ks, counterIncrement_ks, generateBlock_ks, hstate]
    exact (keystream_chunk k c nn n p hp).symm
  case state =>
    simp only [if_true, finish_state, counterIncrement_state, generateBlock_state, hstate]
    exact initState_increment k c nn n

end Sys2Proof.Machine
end

section
/-! PROOF. The dispatch of a legal word (41_control_commands.md R133). -/

namespace Sys2Proof.Machine

theorem checkStep_of_decode {s : State} {i : Instr} (hd : decode s.curcmd = .ok i) : checkStep s = exec i s := by
  rw [checkStep, hd]

/-- Settles O7: with the schedule moved on, the engine's turn is the dispatch, and the dispatch runs the decoded command. -/
theorem stepRunsDecodedCommand : Obligations.StepRunsDecodedCommand := fun s rest _ hmoves hb hp hd =>
  (step_engine hmoves).trans <|
    (engineTurn_check (s := setSchedule s rest) hb hp).trans (checkStep_of_decode (s := setSchedule s rest) hd)

end Sys2Proof.Machine
end

section
/-! PROOF. The control commands NOP, INIT and ZEROIZE (41_control_commands.md R130 to R132). -/

namespace Sys2Proof.Machine

/-- After a completion the interrupt output is CTRL.IE (60_exceptions.md R205, R209). -/
@[simp] theorem irq_finish (s : State) (c : BitVec 4) : irq (finish s c) = s.ie := by
  rw [irq, finish_ie, finish_done, Bool.and_true]

/-- Settles O10: NOP is the completion without an error. -/
theorem nopCompletes : Obligations.NopCompletes := by
  intro s
  rw [← finish_zero]
  exact ⟨exec_nop s, irq_finish s 0⟩

/-! INIT's checks in R131's order: the key before the nonce. -/

theorem loadedError_of_key {s : State} (hk : s.keyld ≠ 0xFF) : loadedError s = some .invalidKeyLength := by
  rw [loadedError, if_pos hk]

theorem loadedError_of_nonce {s : State} (hk : s.keyld = 0xFF) (hn : s.nonceld ≠ 0b111) :
    loadedError s = some .invalidNonceLength := by
  rw [loadedError, if_neg (not_not.mpr hk), if_pos hn]

theorem exec_init_of_error {s : State} {e : ErrorCode} (he : loadedError s = some e) :
    exec .init s = .next (raise s e) := by
  rw [exec_init, execInit, he]

theorem exec_init_of_loaded {s : State} (hk : s.keyld = 0xFF) (hn : s.nonceld = 0b111) :
    exec .init s = .next (finish (captureState s) 0) := by
  rw [exec_init, execInit, (loadedError_none s).mpr ⟨hk, hn⟩]

/-- Settles O11: past both checks INIT is the State Initializer and the completion; `initState` lists the sixteen words. -/
theorem initBuildsState : Obligations.InitBuildsState := by
  intro s hk hn
  rw [exec_init_of_loaded hk hn, finish_zero]
  rfl

/-- Settles O12: the first failing check raises, and `raise` touches nothing but the completion (R206). -/
theorem initRejectsUnloaded : Obligations.InitRejectsUnloaded := by
  refine fun s => ⟨fun hk => ?key, fun hk hn => ?nonce⟩
  case key => rw [exec_init_of_error (loadedError_of_key hk), raise_eq, ErrorCode.code]
  case nonce => rw [exec_init_of_error (loadedError_of_nonce hk hn), raise_eq, ErrorCode.code]

/-- Settles O13: ZEROIZE is its clears and the completion without an error. -/
theorem zeroizeClears : Obligations.ZeroizeClears := by
  intro s
  rw [exec_zeroize, finish_zero]
  rfl

end Sys2Proof.Machine
end

section
/-! PROOF. CIPHER's output so far (42_keystream_commands.md R156, 40_datapath.md R112), kept by every step. -/

namespace Sys2Proof.Machine

/-- While no CIPHER is past its CHECK step nothing is claimed of an output. -/
theorem CipherOutput.of_check {s : State} (hp : s.phase = .check) : CipherOutput s :=
  ⟨fun hw => absurd (hp.symm.trans hw) nofun, fun hne => absurd hp hne⟩

/-- Once the host has raced nothing is claimed of an output (20_memory.md R71). -/
theorem CipherOutput.of_raced {s : State} (hraced : s.raced = true) : CipherOutput s :=
  ⟨fun _ hr => absurd (hraced.symm.trans hr) nofun, fun _ hr => absurd (hraced.symm.trans hr) nofun⟩

theorem inSource_add {s : State} {i : Nat} (hi : i < s.len.toNat) : inSource s (s.src.toNat + i) = true := by
  simp [inSource, hi]

theorem inDest_add {s : State} {i : Nat} (hi : i < s.len.toNat) : inDest s (s.dst.toNat + i) = true := by
  simp [inDest, hi]

/-- With disjoint buffers no input byte is an output byte. -/
theorem BuffersDisjoint.source_ne_dest {s : State} (h : BuffersDisjoint s) {i j : Nat} (hi : i < s.len.toNat)
    (hj : j < s.len.toNat) : s.src.toNat + i ≠ s.dst.toNat + j := by
  intro heq
  have hout := h _ (inSource_add hi)
  rw [heq, inDest_add hj] at hout
  cases hout

/-- After its chunk's GEN, KS holds the keystream byte of CI's position (40_datapath.md R112). -/
theorem CipherProgress.keystreamByte_eq {s : State} (h : CipherProgress s) (hp : s.phase ≠ .gen) :
    keystreamByte s = keystream s.key s.counter s.nonce s.ci := by
  simp only [keystreamByte, h.ks hp]
  rfl

theorem outputByte_of_unraced {s : State} (h : s.raced = false) : outputByte s = s.ibyte ^^^ keystreamByte s := by
  rw [outputByte, h]
  rfl

/-- The byte an unraced WR step writes (42_keystream_commands.md R161). -/
theorem CipherProgress.outputByte_eq {s : State} (h : CipherProgress s) (hp : s.phase ≠ .gen) (hraced : s.raced = false) :
    outputByte s = s.ibyte ^^^ keystream s.key s.counter s.nonce s.ci := by
  rw [outputByte_of_unraced hraced, h.keystreamByte_eq hp]

/-- A WR step with bytes left adds the output byte of CI, and meets no byte that the claim already speaks of. -/
theorem CipherOutput.store {s : State} (h : CipherOutput s) (hprogress : CipherProgress s) (hmem : s.mem.wf)
    (hp : s.phase = .wr) {p : Phase} (hnext : p ≠ .wr) : CipherOutput (setPhase (cipherStore s) p) where
  held hw := absurd hw hnext
  written _ hraced hdisjoint i hi := by
    have hraced : s.raced = false := hraced
    have hdisjoint : BuffersDisjoint s := hdisjoint
    have hci := hprogress.index
    have hle : i ≤ s.ci := Nat.le_of_lt_succ hi
    show (s.mem.write (destAddr s) (outputByte s)).read (s.dst.toNat + i) =
      (s.mem.write (destAddr s) (outputByte s)).read (s.src.toNat + i) ^^^ keystream s.key s.counter s.nonce i
    have hinput : (s.mem.write (destAddr s) (outputByte s)).read (s.src.toNat + i) = s.mem.read (s.src.toNat + i) :=
      Memory.read_write_other s.mem _ _ _ (hdisjoint.source_ne_dest (Nat.lt_of_le_of_lt hle hci) hci)
    rw [hinput]
    obtain hlt | rfl := Nat.lt_or_eq_of_le hle
    · rw [Memory.read_write_other s.mem _ _ _ (by unfold destAddr; omega)]
      exact h.written (by simp [hp]) hraced hdisjoint i hlt
    · rw [show s.dst.toNat + s.ci = destAddr s from rfl, Memory.read_write_same s.mem _ _ hmem,
        hprogress.outputByte_eq (by simp [hp]) hraced, h.held hp hraced]
      rfl

theorem CipherOutput.command {s t : State} {i : Instr} (h : CipherOutput s) (hinv : EngineInv s)
    (he : CommandEffect s i t) : CipherOutput t := by
  cases he with
  | fails | nop | init | block | blockInc | zeroize | cipherEmpty => exact .of_check rfl
  | cipherStarts => exact ⟨nofun, fun _ _ _ i hi => absurd hi (Nat.not_lt_zero i)⟩
  | cipherGenerates hp =>
    exact ⟨by simp, by simpa [BuffersDisjoint, inSource, inDest] using h.written (by simp [hp])⟩
  | cipherFetches hp => exact ⟨fun _ _ => rfl, fun _ => h.written (by simp [hp])⟩
  | cipherStores hp =>
    have hprogress := hinv.cipher (by simp [hp])
    obtain ⟨-, ht⟩ | ⟨-, -, ht⟩ | ⟨-, -, ht⟩ := cipherAdvance_cases (cipherStore s) <;> rw [ht]
    · exact .of_check rfl
    · exact h.store hprogress hinv.memory hp nofun
    · exact h.store hprogress hinv.memory hp nofun
  | cipherStalls => exact h

/-- A register write that takes effect leaves a running CIPHER's output, or ends at PHASE = CHECK (10_state.md R22). -/
theorem CipherOutput.regEffect {s : State} (h : CipherOutput s) (hinv : EngineInv s) (v : Word) {r : Reg}
    (hok : s.busy = false ∨ r.writeProtected = false) : CipherOutput (regEffect s v r) := by
  by_cases hp : s.phase = .check
  · exact .of_check ((regEffect_phase s v r).elim (·.trans hp) id)
  · have hr : r.writeProtected = false := hok.resolve_left fun hb => hp (hinv.idle hb)
    cases r with
    | cmd | counter | key | nonce | src | dst | len | dcap => cases hr
    | id | ctrl | status | loaded | sctr | ks | reserved => exact { h with }

/-- A store outside both buffers changes no byte that the claim speaks of. -/
theorem CipherOutput.storeByte_outside {s : State} (h : CipherOutput s) (hprogress : CipherProgress s) {a : Nat} (v : Byte)
    (hsrc : inSource s a = false) (hdst : inDest s a = false) : CipherOutput (storeByte s a v) := by
  have hin {i : Nat} (hi : i < s.len.toNat) : (s.mem.write a v).read (s.src.toNat + i) = s.mem.read (s.src.toNat + i) :=
    Memory.read_write_other s.mem a _ v fun heq => absurd (heq ▸ inSource_add hi) (by simp [hsrc])
  have hout {i : Nat} (hi : i < s.len.toNat) : (s.mem.write a v).read (s.dst.toNat + i) = s.mem.read (s.dst.toNat + i) :=
    Memory.read_write_other s.mem a _ v fun heq => absurd (heq ▸ inDest_add hi) (by simp [hdst])
  refine ⟨fun hw hraced => (h.held hw hraced).trans (hin hprogress.index).symm, fun hp hraced hdisjoint i hi => ?_⟩
  have hlen := Nat.lt_trans hi hprogress.index
  exact (hout hlen).trans ((h.written hp hraced hdisjoint i hi).trans (congrArg (· ^^^ _) (hin hlen).symm))

theorem CipherOutput.environment {s : State} (h : CipherOutput s) (hinv : EngineInv s) (m : Move) :
    CipherOutput (environmentMove s m) := by
  cases m with
  | engine => exact h
  | busRead addr bits =>
    obtain ⟨r, n, hread⟩ := busRead_frame s addr bits
    rw [environmentMove, hread]
    exact { h with }
  | busWrite addr bits v =>
    rw [environmentMove]
    obtain ⟨-, ht⟩ | ⟨-, -, ht⟩ | ⟨-, -, ht⟩ := busWrite_cases s addr bits v <;> rw [ht]
    · exact { h with }
    · exact { h with }
    · obtain ⟨-, -, hw⟩ | ⟨hok, hw⟩ := regWrite_cases s (regAt (addr - s.base)) v <;> rw [hw]
      · exact { h with }
      · exact { h.regEffect hinv v hok with }
  | hostLoad a =>
    rw [environmentMove]
    obtain ⟨-, -, ht⟩ | ⟨-, ht⟩ := hostLoad_cases s a <;> rw [ht]
    · exact .of_raced rfl
    · exact { h with }
  | hostStore a v =>
    rw [environmentMove]
    obtain ⟨-, -, ht⟩ | ⟨hquiet, ht⟩ := hostStore_cases s a v <;> rw [ht]
    · exact .of_raced rfl
    · by_cases hp : s.phase = .check
      · exact .of_check hp
      · have hprogress := hinv.cipher hp
        have hruns := (cipherRunning_iff s).mpr ⟨hprogress.busy, hprogress.command⟩
        obtain ⟨hsrc, hdst⟩ := hquiet.resolve_left (by simp [hruns])
        exact { h.storeByte_outside hprogress v hsrc hdst with }
  | memoryAnswers silent => exact { h with }
  | reset => exact .of_check rfl

/-- Settles O41: a WR step adds the output byte of CI, and any other step that touches a byte of either buffer is a race. -/
theorem cipherOutputKept : Obligations.CipherOutputKept := by
  intro s t hinv hs h
  refine (step_keeps (P := fun u => EngineInv u ∧ CipherOutput u) (t := t) ?schedule ?illegal ?command ?environment
    ⟨hinv, hs⟩ h).2
  case schedule => exact fun s rest ⟨hinv, hs⟩ => ⟨hinv.setSchedule rest, { hs with }⟩
  case illegal => exact fun s ⟨hinv, _⟩ => ⟨hinv.finish _, .of_check rfl⟩
  case command =>
    exact fun s i t ⟨hinv, hs⟩ hrun he =>
      ⟨hinv.command hrun (exec_mem_wf hinv.memory he) (exec_effect he), hs.command hinv (exec_effect he)⟩
  case environment =>
    exact fun s m ⟨hinv, hs⟩ =>
      ⟨hinv.environment (environmentMove_mem_wf s m hinv.memory) (environmentMove_effect s m), hs.environment hinv m⟩

end Sys2Proof.Machine
end

section
/-! PROOF. BLOCK (42_keystream_commands.md R150, R151). -/

namespace Sys2Proof.Machine

/-- Byte j of word i of a block is byte j of the feedforward of word i (40_datapath.md R107). -/
theorem block_byte (s : Vector Word 16) (dr i j : Nat) (hi : i < 16) (hj : j < 4) :
    (block s dr)[4 * i + j] = leByte ((rounds dr s)[i] + s[i]) j := by
  have hword : (4 * i + j) / 4 = i := by omega
  have hbyte : (4 * i + j) % 4 = j := by omega
  simp only [block_get, hword, hbyte]

/-- The increment sets the counter word of STATE (R151). -/
theorem counterIncrement_counterWord (s : State) : (counterIncrement s).state[12] = s.state[12] + 1 :=
  Vector.getElem_set_self _

/-- The increment leaves every other word of STATE (R151). -/
theorem counterIncrement_otherWord (s : State) {i : Nat} (hi : i < 16) (h : i ≠ 12) :
    (counterIncrement s).state[i] = s.state[i] :=
  Vector.getElem_set_ne (by decide) hi (Ne.symm h)

/-- Settles O14: KS is the block of STATE as it was, and INC alone decides whether the increment follows. -/
theorem blockWritesKeystream : Obligations.BlockWritesKeystream := by
  intro s dr inc hvalid hleft
  refine ⟨_, exec_block_of_checks hvalid hleft dr inc, fun i j hi hj => ?ks, ?plain, ?increment, ?frame⟩
  case ks => cases inc <;> exact block_byte s.state dr i j hi hj
  case plain =>
    rintro rfl
    exact ⟨rfl, hleft⟩
  case increment =>
    rintro rfl
    refine ⟨counterIncrement_counterWord (generateBlock s dr),
      fun i hi h => counterIncrement_otherWord (generateBlock s dr) hi h, ?_⟩
    simp [hleft]
  case frame => cases inc <;> rfl

/-- Settles O15: SVALID is checked before CEXH, and `raise` touches nothing but the completion (60_exceptions.md R206). -/
theorem blockRejections : Obligations.BlockRejections := by
  refine fun s dr inc => ⟨fun hinvalid => ?notInitialized, fun hvalid hexhausted => ?counterOverflow⟩
  case notInitialized => rw [exec_block, execBlock, if_pos hinvalid, raise_eq, ErrorCode.code]
  case counterOverflow =>
    rw [exec_block, execBlock, if_neg (by simp [hvalid]), if_pos hexhausted, raise_eq, ErrorCode.code]

end Sys2Proof.Machine
end

section
/-! PROOF. CIPHER's steps, one by one (42_keystream_commands.md R152 to R163). -/

namespace Sys2Proof.Machine

/-! The step that PHASE names (R161), and how memory answers it (20_memory.md R62). -/

theorem execCipher_check {s : State} (hp : s.phase = .check) : execCipher s = .next (cipherCheck s) := by
  rw [execCipher, hp]

theorem execCipher_gen {s : State} (hp : s.phase = .gen) : execCipher s = .next (cipherGen s) := by
  rw [execCipher, hp]

theorem dmaStep_answered {s : State} {k : AccessKind} {a : Nat} (h : Answered s k a) (done : State) :
    dmaStep s k a done = .next done := by
  rw [dmaStep, dmaAnswer_of_answered h]

theorem dmaStep_busError {s : State} {k : AccessKind} {a : Nat} (h : AnsweredByError s k a) (done : State) :
    dmaStep s k a done = .next (raise s .busError) := by
  rw [dmaStep, dmaAnswer_of_error h]

theorem execCipher_rd {s : State} (hp : s.phase = .rd) (h : Answered s .read (sourceAddr s)) :
    execCipher s = .next (cipherFetch s) := by
  rw [execCipher, hp]
  exact dmaStep_answered h (cipherFetch s)

theorem execCipher_wr {s : State} (hp : s.phase = .wr) (h : Answered s .write (destAddr s)) :
    execCipher s = .next (cipherAdvance (cipherStore s)) := by
  rw [execCipher, hp]
  exact dmaStep_answered h (cipherAdvance (cipherStore s))

theorem execCipher_busError {s : State}
    (h : (s.phase = .rd ∧ AnsweredByError s .read (sourceAddr s)) ∨
      (s.phase = .wr ∧ AnsweredByError s .write (destAddr s))) :
    execCipher s = .next (raise s .busError) := by
  obtain ⟨hp, he⟩ | ⟨hp, he⟩ := h <;> rw [execCipher, hp]
  · exact dmaStep_busError he (cipherFetch s)
  · exact dmaStep_busError he (cipherAdvance (cipherStore s))

/-- Settles O8: with the schedule moved on, the engine's turn is CIPHER's step, or nothing while idle. -/
theorem stepContinuesOrIdles : Obligations.StepContinuesOrIdles := by
  refine fun s rest hmoves => ⟨fun hb hp => ?continues, fun hb => ?idles⟩
  case continues => exact (step_engine hmoves).trans (engineTurn_cipher (s := setSchedule s rest) hb hp)
  case idles =>
    rw [step_engine hmoves, engineTurn, if_neg (by simp [hb])]
    rfl

/-! The CHECK step: the checks of R153 in their order. -/

theorem cipherError_of_loadedError {s : State} {e : ErrorCode} (h : loadedError s = some e) : cipherError s = some e := by
  rw [cipherError, h]

section Loaded

variable {s : State} (hk : s.keyld = 0xFF) (hn : s.nonceld = 0b111)
include hk hn

/-- With the key and the nonce loaded, CIPHER's checks are the three on its buffers and the counter (R153). -/
theorem cipherError_of_loaded : cipherError s =
    if s.dcap.toNat < s.len.toNat then some .bufferLengthMismatch
    else if 2 ^ 32 < s.src.toNat + s.len.toNat ∨ 2 ^ 32 < s.dst.toNat + s.len.toNat then some .addressOverflow
    else if 2 ^ 32 < s.counter.toNat + chunkCount s then some .counterOverflow
    else none := by
  rw [cipherError, (loadedError_none s).mpr ⟨hk, hn⟩]

theorem cipherError_of_capacity (hcap : s.dcap.toNat < s.len.toNat) : cipherError s = some .bufferLengthMismatch := by
  rw [cipherError_of_loaded hk hn, if_pos hcap]

theorem cipherError_of_address (hcap : s.len.toNat ≤ s.dcap.toNat)
    (haddr : 2 ^ 32 < s.src.toNat + s.len.toNat ∨ 2 ^ 32 < s.dst.toNat + s.len.toNat) :
    cipherError s = some .addressOverflow := by
  rw [cipherError_of_loaded hk hn, if_neg (Nat.not_lt.mpr hcap), if_pos haddr]

theorem cipherError_of_counter (hcap : s.len.toNat ≤ s.dcap.toNat) (hsrc : s.src.toNat + s.len.toNat ≤ 2 ^ 32)
    (hdst : s.dst.toNat + s.len.toNat ≤ 2 ^ 32) (hcount : 2 ^ 32 < s.counter.toNat + chunkCount s) :
    cipherError s = some .counterOverflow := by
  rw [cipherError_of_loaded hk hn, if_neg (Nat.not_lt.mpr hcap), if_neg (by omega), if_pos hcount]

/-- With LEN = 0 nothing but an unloaded key or nonce fails (R163). -/
theorem cipherError_of_empty (hlen : s.len = 0) : cipherError s = none := by
  have hzero : s.len.toNat = 0 := by rw [hlen]; rfl
  have hsrc := s.src.isLt
  have hdst := s.dst.isLt
  have hcount := s.counter.isLt
  refine (cipherError_none s).mpr ⟨hk, hn, ?_, ?_, ?_, ?_⟩ <;> simp only [chunkCount, hzero] <;> omega

end Loaded

/-- A failing check ends CIPHER with its code and no other effect (R153, 60_exceptions.md R206). -/
theorem exec_cipher_of_error {s : State} {e : ErrorCode} (hp : s.phase = .check) (he : cipherError s = some e) :
    exec .cipher s = .next { s with busy := false, done := true, err := true, errcode := e.code } := by
  rw [exec_cipher, execCipher_check hp, cipherCheck, he]
  show Host.Outcome.next (raise s e) = _
  rw [raise_eq, ← hp]

theorem exec_cipher_of_unloaded_key {s : State} (hp : s.phase = .check) (hk : s.keyld ≠ 0xFF) :
    exec .cipher s = .next { s with busy := false, done := true, err := true, errcode := 1 } :=
  exec_cipher_of_error hp (cipherError_of_loadedError (loadedError_of_key hk))

theorem exec_cipher_of_unloaded_nonce {s : State} (hp : s.phase = .check) (hk : s.keyld = 0xFF) (hn : s.nonceld ≠ 0b111) :
    exec .cipher s = .next { s with busy := false, done := true, err := true, errcode := 2 } :=
  exec_cipher_of_error hp (cipherError_of_loadedError (loadedError_of_nonce hk hn))

/-- Every check passes, and there are bytes to do (R155, R161). -/
theorem cipherCheck_starts {s : State} (he : cipherError s = none) (hl : s.len ≠ 0) :
    cipherCheck s = setPhase (cipherStart s) .gen := by
  rw [cipherCheck, he]
  exact if_neg hl

/-- Every check passes, and there are no bytes to do (R163). -/
theorem cipherCheck_empty {s : State} (he : cipherError s = none) (hl : s.len = 0) :
    cipherCheck s = finish (cipherStart s) 0 := by
  rw [cipherCheck, he]
  exact if_pos hl

/-- Settles O17: each failing check raises its code when those before it pass, and past all five the step raises nothing. -/
theorem cipherChecksInOrder : Obligations.CipherChecksInOrder := by
  refine fun s hp => ⟨exec_cipher_of_unloaded_key hp, exec_cipher_of_unloaded_nonce hp, fun hk hn hcap => ?capacity,
    fun hk hn hcap haddr => ?address, fun hk hn hcap hsrc hdst hcount => ?counter,
    fun hk hn hcap hsrc hdst hcount => ?passes⟩
  case capacity => exact exec_cipher_of_error hp (cipherError_of_capacity hk hn hcap)
  case address => exact exec_cipher_of_error hp (cipherError_of_address hk hn hcap haddr)
  case counter => exact exec_cipher_of_error hp (cipherError_of_counter hk hn hcap hsrc hdst hcount)
  case passes =>
    have he : cipherError s = none := (cipherError_none s).mpr ⟨hk, hn, hcap, hsrc, hdst, hcount⟩
    refine ⟨_, execCipher_check hp, ?_⟩
    by_cases hl : s.len = 0
    · rw [cipherCheck_empty he hl]
      exact ⟨rfl, rfl⟩
    · rw [cipherCheck_starts he hl]
      exact ⟨rfl, rfl⟩

/-- Settles O18: past the checks the step is the State Initializer with CI and PHASE set. -/
theorem cipherInitialises : Obligations.CipherInitialises := by
  intro s hp hk hn hcap hsrc hdst hcount hl
  have he : cipherError s = none := (cipherError_none s).mpr ⟨hk, hn, hcap, hsrc, hdst, hcount⟩
  rw [exec_cipher, execCipher_check hp, cipherCheck_starts he hl]
  rfl

/-- Settles O19: with LEN = 0 only the loaded checks can fail, and past them the step is the State Initializer and the completion. -/
theorem cipherOfNothing : Obligations.CipherOfNothing := by
  refine fun s hp hl => ⟨exec_cipher_of_unloaded_key hp, exec_cipher_of_unloaded_nonce hp,
    fun hk hn => ⟨?_, initState_12 _ _ _⟩⟩
  rw [exec_cipher, execCipher_check hp, cipherCheck_empty (cipherError_of_empty hk hn hl) hl, finish_zero, ← hp]
  rfl

/-! GEN, RD and WR. -/

/-- The GEN step writes what `cipherGen`'s field lemmas say and nothing else (R161). -/
theorem cipherGen_eq (s : State) : cipherGen s = { s with
    phase := .rd, ks := (cipherGen s).ks, work := rounds 10 s.state, state := (cipherGen s).state
    cexh := (cipherGen s).cexh } := by
  simp only [cipherGen, setPhase, counterIncrement, generateBlock, Config.cipherDR]

/-- Settles O20: one block of STATE as it was, then the increment. -/
theorem cipherGeneratesBlock : Obligations.CipherGeneratesBlock := by
  refine fun s hp => ⟨cipherGen s, execCipher_gen hp, cipherGen_phase s, cipherGen_ks s, ?counter, fun i hi h => ?other, ?wrap,
    cipherGen_eq s⟩
  case counter => simp
  case other => simp [Vector.getElem_set_ne, Ne.symm h]
  case wrap => simp

/-- Settles O21: an answered read completes the RD step. -/
theorem cipherReadsByte : Obligations.CipherReadsByte := fun _ hp hanswer => execCipher_rd hp hanswer

/-- After WR only PHASE and the completion are decided (R161). -/
theorem cipherAdvance_eq (s : State) : cipherAdvance s = { s with
    phase := (cipherAdvance s).phase, busy := (cipherAdvance s).busy, done := (cipherAdvance s).done } := by
  obtain ⟨-, h⟩ | ⟨-, -, h⟩ | ⟨-, -, h⟩ := cipherAdvance_cases s <;> rw [h] <;> rfl

@[simp] theorem cipherAdvance_mem (s : State) : (cipherAdvance s).mem = s.mem := by rw [cipherAdvance_eq]
@[simp] theorem cipherAdvance_ci (s : State) : (cipherAdvance s).ci = s.ci := by rw [cipherAdvance_eq]
@[simp] theorem cipherAdvance_draws (s : State) : (cipherAdvance s).draws = s.draws := by rw [cipherAdvance_eq]

theorem cipherAdvance_last {s : State} (hlast : s.ci = s.len.toNat) : cipherAdvance s = finish s 0 := by
  rw [cipherAdvance, if_pos hlast]

theorem cipherAdvance_chunk {s : State} (hmore : s.ci ≠ s.len.toNat) (hend : s.ci % 64 = 0) :
    cipherAdvance s = setPhase s .gen := by
  rw [cipherAdvance, if_neg hmore, if_pos hend]

theorem cipherAdvance_byte {s : State} (hmore : s.ci ≠ s.len.toNat) (hin : s.ci % 64 ≠ 0) :
    cipherAdvance s = setPhase s .rd := by
  rw [cipherAdvance, if_neg hmore, if_neg hin]

theorem outputByte_of_raced {s : State} (h : s.raced = true) : outputByte s = Config.draw8 s.draws := by
  rw [outputByte, if_pos h]

/-- Settles O22: the store is of `outputByte` at DST + CI, and `cipherAdvance` decides among completion, GEN and RD. -/
theorem cipherWritesByte : Obligations.CipherWritesByte := by
  intro s hp hmem hanswer
  have hstored : (cipherAdvance (cipherStore s)).mem.read (destAddr s) = outputByte s := by
    rw [cipherAdvance_mem, cipherStore_mem, Memory.read_write_same s.mem _ _ hmem]
  refine ⟨_, execCipher_wr hp hanswer, cipherAdvance_ci _,
    fun hraced => ⟨by simp [hraced], hstored.trans (outputByte_of_unraced hraced)⟩,
    fun hraced => ⟨by simp [hraced], hstored.trans (outputByte_of_raced hraced)⟩, fun a ha => ?others,
    fun hlast => ?last, fun hmore hend => ?chunk, fun hmore hin => ?byte, ?frame⟩
  case others =>
    rw [cipherAdvance_mem, cipherStore_mem]
    exact Memory.read_write_other s.mem _ a _ ha
  case last =>
    rw [cipherAdvance_last (s := cipherStore s) hlast]
    exact ⟨rfl, rfl, rfl⟩
  case chunk =>
    rw [cipherAdvance_chunk (s := cipherStore s) hmore hend]
    exact ⟨rfl, rfl, rfl⟩
  case byte =>
    rw [cipherAdvance_byte (s := cipherStore s) hmore hin]
    exact ⟨rfl, rfl, rfl⟩
  case frame =>
    rw [cipherAdvance_mem, cipherAdvance_ci, cipherAdvance_draws]
    exact cipherAdvance_eq (cipherStore s)

/-- Settles O23: the step is `raise`, which touches nothing but the completion and PHASE (60_exceptions.md R206). -/
theorem cipherBusErrorEnds : Obligations.CipherBusErrorEnds := by
  refine fun s => ⟨fun hp he => ?read, fun hp he => ?write⟩
  case read => rw [exec_cipher, execCipher_busError (.inl ⟨hp, he⟩), raise_eq, ErrorCode.code]
  case write => rw [exec_cipher, execCipher_busError (.inr ⟨hp, he⟩), raise_eq, ErrorCode.code]

end Sys2Proof.Machine
end

section
/-! PROOF. A whole CIPHER that is left to run (42_keystream_commands.md R156 to R161): its output, and its number of steps. -/

namespace Sys2Proof.Machine

/-! The memory that CIPHER leaves, as a recursion over the bytes in their order (20_memory.md R67). -/

/-- Memory when the CIPHER that `s` is about to run has done its first `i` bytes (R156, R161). -/
def outputMemory (s : State) : Nat → Memory
  | 0 => s.mem
  | i + 1 => (outputMemory s i).write (s.dst.toNat + i)
      ((outputMemory s i).read (s.src.toNat + i) ^^^ keystream s.key s.counter s.nonce i)

theorem outputMemory_wf {s : State} (hmem : s.mem.wf) (haddr : s.dst.toNat + s.len.toNat ≤ 2 ^ 32) {i : Nat}
    (hi : i ≤ s.len.toNat) : (outputMemory s i).wf := by
  induction i with
  | zero => exact hmem
  | succ i ih => exact Memory.write_wf _ _ _ (show s.dst.toNat + i < 2 ^ 32 by omega) (ih (by omega))

/-- A byte is as it was until CIPHER comes to it. -/
theorem outputMemory_read_unwritten {s : State} {a i : Nat} (h : a < s.dst.toNat ∨ s.dst.toNat + i ≤ a) :
    (outputMemory s i).read a = s.mem.read a := by
  induction i with
  | zero => rfl
  | succ i ih => exact (Memory.read_write_other _ _ a _ (by omega)).trans (ih (by omega))

/-- A byte that CIPHER has passed it does not write again. -/
theorem outputMemory_read_passed {s : State} {a i n : Nat} (hn : i ≤ n) (ha : a < s.dst.toNat + i) :
    (outputMemory s n).read a = (outputMemory s i).read a := by
  induction n, hn using Nat.le_induction with
  | base => rfl
  | succ n hn ih => exact (Memory.read_write_other _ _ a _ (by omega)).trans ih

/-- Output byte `i` in the end: the byte at SRC + `i` when CIPHER came to it, XOR its keystream byte (R156). -/
theorem outputMemory_read_dest {s : State} (hmem : s.mem.wf) (haddr : s.dst.toNat + s.len.toNat ≤ 2 ^ 32) {i : Nat}
    (hi : i < s.len.toNat) : (outputMemory s s.len.toNat).read (s.dst.toNat + i) =
      (outputMemory s i).read (s.src.toNat + i) ^^^ keystream s.key s.counter s.nonce i :=
  (outputMemory_read_passed hi (Nat.lt_succ_self _)).trans
    (Memory.read_write_same _ _ _ (outputMemory_wf hmem haddr (Nat.le_of_lt hi)))

/-! A CIPHER between its first step and its last. -/

/-- What a CIPHER leaves from its acceptance in `s` until it completes without an error in `u` (30_encoding.md R90). -/
structure CipherFrame (s u : State) : Prop extends CommandFrame s u where
  key : u.key = s.key
  nonce : u.nonce = s.nonce
  keyld : u.keyld = s.keyld
  nonceld : u.nonceld = s.nonceld
  err : u.err = s.err
  errcode : u.errcode = s.errcode

theorem CipherFrame.refl (s : State) : CipherFrame s s :=
  { CommandFrame.refl s with key := rfl, nonce := rfl, keyld := rfl, nonceld := rfl, err := rfl, errcode := rfl }

theorem CipherFrame.generate {s u : State} (h : CipherFrame s u) : CipherFrame s (cipherGen u) := by
  obtain ⟨⟨⟩⟩ := h
  constructor
  · constructor <;> simpa
  all_goals simpa

theorem CipherFrame.streamState_eq {s u : State} (h : CipherFrame s u) (k : Nat) : streamState u k = streamState s k := by
  rw [streamState, streamState, h.key, h.counter, h.nonce]

theorem CipherFrame.chunkCount_eq {s u : State} (h : CipherFrame s u) : chunkCount u = chunkCount s := by
  rw [chunkCount, chunkCount, h.len]

/-- The CIPHER accepted in `s` has come as far as `u`, and no other agent has moved. -/
structure CipherUnderway (s u : State) : Prop where
  frame : CipherFrame s u
  progress : CipherProgress u
  started : u.phase ≠ .check
  memory : u.mem = outputMemory s u.ci
  held : u.phase = .wr → u.ibyte = u.mem.read (sourceAddr u)

/-- The CIPHER accepted in `s` has completed in `t` without an error, and no other agent has moved. -/
structure CipherCompleted (s t : State) : Prop where
  frame : CipherFrame s t
  idle : t.busy = false
  done : t.done = true
  svalid : t.svalid = true
  state : t.state = streamState s (chunkCount s)
  cexh : t.cexh = true ↔ s.counter.toNat + chunkCount s = 2 ^ 32
  memory : t.mem = outputMemory s s.len.toNat
  ksKept : s.len = 0 → t.ks = s.ks
  ks : s.len ≠ 0 → t.ks = block (streamState s (chunkCount s - 1)) Config.cipherDR

/-- The steps a running CIPHER has taken after its first: one for each block, and two for each byte (R161). -/
def cipherStepsTaken (s : State) : Nat := blocksGenerated s + 2 * s.ci + if s.phase = .wr then 1 else 0

/-- The last chunk is the one of the last byte. -/
theorem chunkCount_of_last {s : State} (h : s.ci + 1 = s.len.toNat) : chunkCount s = s.ci / 64 + 1 := by
  unfold chunkCount
  omega

/-- A CIPHER under way has steps left. -/
theorem CipherProgress.stepsTaken_lt {s : State} (h : CipherProgress s) :
    cipherStepsTaken s < chunkCount s + 2 * s.len.toNat := by
  have hindex := h.index
  have hblocks : blocksGenerated s ≤ s.ci / 64 + 1 := by
    unfold blocksGenerated
    split <;> omega
  have hhalf : (if s.phase = .wr then 1 else 0) ≤ 1 := by split <;> omega
  unfold cipherStepsTaken chunkCount
  omega

/-- The first step's end, when there are bytes to do (R155). -/
theorem CipherUnderway.start {s : State} (hb : s.busy = true) (hw : s.curcmd = 0x00000003) (hc : cipherError s = none)
    (hl : s.len ≠ 0) : CipherUnderway s (setPhase (cipherStart s) .gen) where
  frame := { CipherFrame.refl s with }
  progress := .start hb hw hc hl
  started := nofun
  memory := rfl
  held := nofun

theorem cipherStepsTaken_start (s : State) : cipherStepsTaken (setPhase (cipherStart s) .gen) = 0 := by
  simp [cipherStepsTaken, blocksGenerated]

/-- With LEN = 0 the first step is the last (R163). -/
theorem CipherCompleted.of_empty {s : State} (hl : s.len = 0) : CipherCompleted s (finish (cipherStart s) 0) := by
  have hzero : s.len.toNat = 0 := by rw [hl]; rfl
  have hchunks : chunkCount s = 0 := by rw [chunkCount, hzero]
  exact {
    frame := { CipherFrame.refl s with }
    idle := rfl
    done := rfl
    svalid := rfl
    state := by rw [hchunks, streamState, BitVec.ofNat_eq_ofNat, BitVec.add_zero]; rfl
    cexh := iff_of_false nofun (by rw [hchunks]; exact Nat.ne_of_lt s.counter.isLt)
    memory := by rw [hzero]; rfl
    ksKept := fun _ => rfl
    ks := fun hne => absurd hl hne }

section Underway

variable {s u : State} (h : CipherUnderway s u)
include h

theorem CipherUnderway.generate (hp : u.phase = .gen) :
    CipherUnderway s (cipherGen u) ∧ cipherStepsTaken (cipherGen u) = cipherStepsTaken u + 1 := by
  refine ⟨{ frame := h.frame.generate, progress := h.progress.generate hp, started := by simp,
            memory := by simpa using h.memory, held := by simp }, ?steps⟩
  case steps =>
    simp [cipherStepsTaken, blocksGenerated, hp]
    omega

theorem CipherUnderway.fetch (hp : u.phase = .rd) :
    CipherUnderway s (cipherFetch u) ∧ cipherStepsTaken (cipherFetch u) = cipherStepsTaken u + 1 := by
  refine ⟨{ frame := { h.frame with }, progress := h.progress.fetch hp, started := nofun, memory := h.memory,
            held := fun _ => rfl }, ?steps⟩
  case steps => simp [cipherStepsTaken, blocksGenerated, hp]

/-- The WR step makes the memory of one byte more (R161). -/
theorem CipherUnderway.store_mem (hraced : s.raced = false) (hp : u.phase = .wr) :
    (cipherStore u).mem = outputMemory s (u.ci + 1) := by
  have hbyte := h.progress.outputByte_eq (by simp [hp]) (h.frame.raced.trans hraced)
  rw [cipherStore_mem, hbyte, h.held hp, sourceAddr, destAddr, h.memory, h.frame.src, h.frame.dst, h.frame.key,
    h.frame.counter, h.frame.nonce]
  rfl

theorem CipherUnderway.store (hraced : s.raced = false) (hp : u.phase = .wr) {p : Phase} (hmore : u.ci + 1 ≠ u.len.toNat)
    (hnext : (u.ci + 1) % 64 = 0 ∧ p = .gen ∨ (u.ci + 1) % 64 ≠ 0 ∧ p = .rd) :
    CipherUnderway s (setPhase (cipherStore u) p) ∧
      cipherStepsTaken (setPhase (cipherStore u) p) = cipherStepsTaken u + 1 := by
  constructor
  · have hp' : p ≠ .check ∧ p ≠ .wr := by obtain ⟨-, rfl⟩ | ⟨-, rfl⟩ := hnext <;> decide
    exact { frame := { h.frame with }, progress := h.progress.advance hp hmore hnext, started := hp'.1,
            memory := h.store_mem hraced hp, held := fun hw => absurd hw hp'.2 }
  · obtain ⟨hend, rfl⟩ | ⟨hin, rfl⟩ := hnext <;> simp [cipherStepsTaken, blocksGenerated, hp] <;> omega

theorem CipherUnderway.complete (hraced : s.raced = false) (hp : u.phase = .wr) (hlast : u.ci + 1 = u.len.toNat) :
    CipherCompleted s (finish (cipherStore u) 0) ∧ cipherStepsTaken u + 1 = chunkCount s + 2 * s.len.toNat := by
  have hchunks : chunkCount s = u.ci / 64 + 1 := h.frame.chunkCount_eq.symm.trans (chunkCount_of_last hlast)
  have hblocks : blocksGenerated u = chunkCount s := by rw [hchunks, blocksGenerated, hp]
  have hlen : u.ci + 1 = s.len.toNat := h.frame.len ▸ hlast
  have hne : s.len ≠ 0 := by
    intro h0
    rw [h0] at hlen
    cases hlen
  constructor
  · exact {
      frame := { h.frame with }
      idle := rfl
      done := rfl
      svalid := h.progress.svalid
      state := by rw [← hblocks, ← h.frame.streamState_eq]; exact h.progress.state
      cexh := by rw [← hblocks, ← h.frame.counter]; exact h.progress.cexh
      memory := by rw [← hlen]; exact h.store_mem hraced hp
      ksKept := fun h0 => absurd h0 hne
      ks := fun _ => by
        rw [hchunks, Nat.add_sub_cancel, ← h.frame.streamState_eq]
        exact h.progress.ks (by simp [hp]) }
  · rw [cipherStepsTaken, if_pos hp, hblocks]
    omega

end Underway

theorem step_of_empty_schedule {s : State} (h : s.schedule = []) : step s = engineTurn s := by
  rw [step, h]

/-- A CIPHER under way takes one step more, or its last. -/
theorem CipherUnderway.step {s u : State} (h : CipherUnderway s u) (hschedule : s.schedule = []) (hraced : s.raced = false)
    (hanswered : AllAnswered s) : ∃ v, Machine.step u = .next v ∧
      ((CipherUnderway s v ∧ cipherStepsTaken v = cipherStepsTaken u + 1) ∨
        (CipherCompleted s v ∧ cipherStepsTaken u + 1 = chunkCount s + 2 * s.len.toNat)) := by
  obtain ⟨hread, hwrite⟩ := hanswered u.ci (h.frame.len ▸ h.progress.index)
  have hread : Answered u .read (sourceAddr u) := by
    rwa [sourceAddr, Answered, h.frame.src, h.frame.memSilent, h.frame.memBad]
  have hwrite : Answered u .write (destAddr u) := by
    rwa [destAddr, Answered, h.frame.dst, h.frame.memSilent, h.frame.memBad]
  rw [step_of_empty_schedule (h.frame.schedule.trans hschedule), engineTurn_cipher h.progress.busy h.started]
  match hp : u.phase with
  | .check => exact absurd hp h.started
  | .gen => exact ⟨_, execCipher_gen hp, .inl (h.generate hp)⟩
  | .rd => exact ⟨_, execCipher_rd hp hread, .inl (h.fetch hp)⟩
  | .wr =>
    refine ⟨_, execCipher_wr hp hwrite, ?_⟩
    obtain ⟨hlast, ht⟩ | ⟨hmore, hend, ht⟩ | ⟨hmore, hin, ht⟩ := cipherAdvance_cases (cipherStore u) <;> rw [ht]
    · exact .inr (h.complete hraced hp hlast)
    · exact .inl (h.store hraced hp hmore (.inl ⟨hend, rfl⟩))
    · exact .inl (h.store hraced hp hmore (.inr ⟨hin, rfl⟩))

/-! The run. -/

/-- `n` steps lead from `s` to `t`, and BUSY is 1 after every smaller number of them. -/
structure BusyRun (n : Nat) (s t : State) : Prop where
  busy : ∀ k, k < n → ∃ u, Host.Core.run Sys2Proof.core k s = .next u ∧ u.busy = true
  ends : Host.Core.run Sys2Proof.core n s = .next t

theorem run_succ_of_step {M : Host.Core} {s u : M.State} (h : M.step s = .next u) (k : Nat) :
    M.run (k + 1) s = M.run k u := by
  rw [Host.Core.run, h]

theorem BusyRun.refl (t : State) : BusyRun 0 t t := ⟨fun k hk => absurd hk (Nat.not_lt_zero k), rfl⟩

theorem BusyRun.cons {n : Nat} {s u t : State} (hb : s.busy = true) (hstep : step s = .next u) (h : BusyRun n u t) :
    BusyRun (n + 1) s t where
  busy k hk := by
    cases k with
    | zero => exact ⟨s, rfl, hb⟩
    | succ k => rw [run_succ_of_step (M := core) hstep]; exact h.busy k (Nat.lt_of_succ_lt_succ hk)
  ends := (run_succ_of_step (M := core) hstep n).trans h.ends

/-- A CIPHER under way completes after exactly the steps it has left. -/
theorem CipherUnderway.completes {s : State} (hschedule : s.schedule = []) (hraced : s.raced = false)
    (hanswered : AllAnswered s) (n : Nat) : ∀ u, CipherUnderway s u →
      n + cipherStepsTaken u = chunkCount s + 2 * s.len.toNat → ∃ t, BusyRun n u t ∧ CipherCompleted s t := by
  induction n with
  | zero =>
    intro u h hn
    have hlt := h.progress.stepsTaken_lt
    rw [h.frame.chunkCount_eq, h.frame.len] at hlt
    omega
  | succ n ih =>
    intro u h hn
    obtain ⟨v, hstep, ⟨hv, hsteps⟩ | ⟨hv, hsteps⟩⟩ := h.step hschedule hraced hanswered
    · obtain ⟨t, hrun, ht⟩ := ih v hv (by omega)
      exact ⟨t, hrun.cons h.progress.busy hstep, ht⟩
    · obtain rfl : n = 0 := by omega
      exact ⟨v, (BusyRun.refl v).cons h.progress.busy hstep, hv⟩

/-- An accepted CIPHER whose checks pass completes after 1 + nblk + 2L steps (R161). -/
theorem cipher_completes {s : State} (hschedule : s.schedule = []) (hb : s.busy = true) (hp : s.phase = .check)
    (hw : s.curcmd = 0x00000003) (hraced : s.raced = false) (hc : cipherError s = none) (hanswered : AllAnswered s) :
    ∃ t, BusyRun (chunkCount s + 2 * s.len.toNat + 1) s t ∧ CipherCompleted s t := by
  have hdecode : decode s.curcmd = .ok .cipher := hw ▸ decodeOfEncode .cipher (Nat.zero_le 31)
  have hstep : step s = .next (cipherCheck s) := by
    rw [step_of_empty_schedule hschedule, engineTurn_check hb hp, checkStep_of_decode hdecode]
    exact execCipher_check hp
  by_cases hl : s.len = 0
  · have hzero : chunkCount s + 2 * s.len.toNat = 0 := by rw [chunkCount, hl]; rfl
    rw [cipherCheck_empty hc hl] at hstep
    rw [hzero]
    exact ⟨_, (BusyRun.refl _).cons hb hstep, .of_empty hl⟩
  · rw [cipherCheck_starts hc hl] at hstep
    obtain ⟨t, hrun, ht⟩ := CipherUnderway.completes hschedule hraced hanswered (chunkCount s + 2 * s.len.toNat) _
      (.start hb hw hc hl) (by rw [cipherStepsTaken_start, Nat.add_zero])
    exact ⟨t, hrun.cons hb hstep, ht⟩

/-- Settles O25: the steps are counted by `cipherStepsTaken`, and what memory holds in the end is `outputMemory`. -/
theorem cipherRunCompletes : Obligations.CipherRunCompletes := by
  intro s hschedule hb hp hw hraced herr herrcode hmem hc hanswered
  obtain ⟨t, hrun, ht⟩ := cipher_completes hschedule hb hp hw hraced hc hanswered
  obtain ⟨-, -, -, -, haddr, -⟩ := (cipherError_none s).mp hc
  have htotal : 1 + (s.len.toNat + 63) / 64 + 2 * s.len.toNat = chunkCount s + 2 * s.len.toNat + 1 := by
    unfold chunkCount
    omega
  have hframe := ht.frame
  have hdest {i : Nat} (hi : i < s.len.toNat) := outputMemory_read_dest hmem haddr hi
  rw [htotal]
  refine ⟨hrun.busy, t, hrun.ends, ht.idle, ht.done, hframe.err.trans herr, hframe.errcode.trans herrcode, ht.svalid,
    ht.state, ht.cexh, fun a hout => ?outside, fun hapart i hi => ?apart, fun hoverlap i hi => ?overlap, ht.ksKept, ht.ks,
    hframe.counter, hframe.key, hframe.nonce, hframe.keyld, hframe.nonceld, hframe.src, hframe.dst, hframe.len, hframe.dcap⟩
  case outside =>
    rw [inDest_eq_false] at hout
    rw [ht.memory, outputMemory_read_unwritten (by omega)]
  case apart => rw [ht.memory, hdest hi, outputMemory_read_unwritten (by omega)]
  case overlap =>
    rw [ht.memory, hdest hi]
    split
    · rw [outputMemory_read_unwritten (by omega)]
    · have hearlier : s.dst.toNat + (i - (s.dst.toNat - s.src.toNat)) = s.src.toNat + i := by omega
      rw [hearlier, outputMemory_read_passed (Nat.le_of_lt hi) (by omega)]

end Sys2Proof.Machine
end

section
/-! PROOF. The completions of the commands: their errors (60_exceptions.md R201, R202, R206) and the interrupt (R209). -/

namespace Sys2Proof.Machine

/-- The errors that the step of a command in `s` can raise, by the check or the access that fails (R202). -/
inductive Raises (s : State) : Instr → ErrorCode → Prop where
  /-- INIT's checks (41_control_commands.md R131). -/
  | init {e : ErrorCode} (he : loadedError s = some e) : Raises s .init e
  /-- BLOCK's first check (42_keystream_commands.md R150). -/
  | blockInvalid (dr : Nat) (inc : Bool) (hsvalid : s.svalid = false) : Raises s (.block dr inc) .notInitialized
  /-- BLOCK's second check (R150). -/
  | blockExhausted (dr : Nat) (inc : Bool) (hcexh : s.cexh = true) : Raises s (.block dr inc) .counterOverflow
  /-- CIPHER's checks (R153). -/
  | cipherCheck {e : ErrorCode} (hphase : s.phase = .check) (he : cipherError s = some e) : Raises s .cipher e
  /-- A DMA access of a CIPHER past its checks (R162). -/
  | cipherAccess (hphase : s.phase ≠ .check) : Raises s .cipher .busError

/-- A DMA step raises BusError, or leaves ERR and ERRCODE if its completion does (20_memory.md R62). -/
theorem dmaStep_error_cases {s d t : State} {k : AccessKind} {a : Nat} (h : dmaStep s k a d = .next t)
    (hp : s.phase ≠ .check) (hd : d.err = s.err ∧ d.errcode = s.errcode) :
    (∃ e, Raises s .cipher e ∧ t = raise s e) ∨ (t.err = s.err ∧ t.errcode = s.errcode) := by
  obtain ⟨-, rfl⟩ | ⟨-, rfl⟩ | ⟨-, rfl⟩ := dmaStep_cases h
  · exact .inr hd
  · exact .inl ⟨.busError, .cipherAccess hp, rfl⟩
  · exact .inr ⟨rfl, rfl⟩

theorem cipherAdvance_error (s : State) : (cipherAdvance s).err = s.err ∧ (cipherAdvance s).errcode = s.errcode := by
  rw [cipherAdvance_eq]
  exact ⟨rfl, rfl⟩

/-- A command's step raises an error, or leaves ERR and ERRCODE (R205, R206). -/
theorem exec_error_cases {i : Instr} {s t : State} (h : exec i s = .next t) :
    (∃ e, Raises s i e ∧ t = raise s e) ∨ (t.err = s.err ∧ t.errcode = s.errcode) := by
  cases i with
  | nop | zeroize => cases h; exact .inr ⟨rfl, rfl⟩
  | init =>
    obtain ⟨e, he, rfl⟩ | ⟨-, rfl⟩ := execInit_cases h
    · exact .inl ⟨e, .init he, rfl⟩
    · exact .inr ⟨rfl, rfl⟩
  | block dr inc =>
    obtain ⟨hv, rfl⟩ | ⟨-, hc, rfl⟩ | ⟨-, -, rfl⟩ := execBlock_cases h
    · exact .inl ⟨_, .blockInvalid dr inc hv, rfl⟩
    · exact .inl ⟨_, .blockExhausted dr inc hc, rfl⟩
    · cases inc <;> exact .inr ⟨rfl, rfl⟩
  | cipher =>
    obtain ⟨hp, rfl⟩ | ⟨-, rfl⟩ | ⟨hp, h⟩ | ⟨hp, h⟩ := execCipher_cases h
    · obtain ⟨e, he, ht⟩ | ⟨-, -, ht⟩ | ⟨-, -, ht⟩ := cipherCheck_cases s <;> rw [ht]
      · exact .inl ⟨e, .cipherCheck hp he, rfl⟩
      · exact .inr ⟨rfl, rfl⟩
      · exact .inr ⟨rfl, rfl⟩
    · exact .inr ⟨cipherGen_err s, cipherGen_errcode s⟩
    · exact dmaStep_error_cases h (by simp [hp]) ⟨rfl, rfl⟩
    · exact dmaStep_error_cases h (by simp [hp]) (cipherAdvance_error (cipherStore s))

/-! The codes (R201, R202). -/

theorem loadedError_some {s : State} {e : ErrorCode} (h : loadedError s = some e) :
    e = .invalidKeyLength ∨ e = .invalidNonceLength := by
  by_cases hk : s.keyld = 0xFF
  · by_cases hn : s.nonceld = 0b111
    · rw [(loadedError_none s).mpr ⟨hk, hn⟩] at h
      cases h
    · rw [loadedError_of_nonce hk hn] at h
      cases h
      exact .inr rfl
  · rw [loadedError_of_key hk] at h
    cases h
    exact .inl rfl

theorem cipherError_some {s : State} {e : ErrorCode} (h : cipherError s = some e) :
    e = .invalidKeyLength ∨ e = .invalidNonceLength ∨ e = .bufferLengthMismatch ∨ e = .addressOverflow ∨
      e = .counterOverflow := by
  cases hl : loadedError s with
  | some e' =>
    rw [cipherError_of_loadedError hl] at h
    cases h
    exact (loadedError_some hl).imp_right .inl
  | none =>
    obtain ⟨hk, hn⟩ := (loadedError_none s).mp hl
    rw [cipherError_of_loaded hk hn] at h
    split_ifs at h <;> cases h <;> simp

theorem Raises.code_mem {s : State} {i : Instr} {e : ErrorCode} (h : Raises s i e) : e.code ∈ possibleCodes i := by
  cases h with
  | init he => obtain rfl | rfl := loadedError_some he <;> decide
  | cipherCheck _ he => obtain rfl | rfl | rfl | rfl | rfl := cipherError_some he <;> decide
  | blockInvalid | blockExhausted => simp [possibleCodes, ErrorCode.code]
  | cipherAccess => decide

theorem zero_mem_possibleCodes (i : Instr) : 0 ∈ possibleCodes i := by cases i <;> exact List.mem_cons_self

theorem ErrorCode.code_eq_seven (e : ErrorCode) : e.code = 7 ↔ e = .busError := by cases e <;> decide

/-- BusError is what a CIPHER past its checks raises, and nothing else does (R206). -/
theorem Raises.busError_iff {s : State} {i : Instr} {e : ErrorCode} (h : Raises s i e) :
    e = .busError ↔ i = .cipher ∧ s.phase ≠ .check := by
  cases h with
  | init he => obtain rfl | rfl := loadedError_some he <;> simp
  | cipherCheck hp he => obtain rfl | rfl | rfl | rfl | rfl := cipherError_some he <;> simp [hp]
  | blockInvalid | blockExhausted => simp
  | cipherAccess hp => simp [hp]

theorem legal_eq_false_iff (w : Word) : legal w = false ↔ ∀ i, decode w ≠ .ok i := by
  rw [Bool.eq_false_iff, Ne, legal_iff_decodes, not_exists]

/-- Settles O34: an error leaves one of the command's codes and anything else the 0 of acceptance; an illegal word is O3. -/
theorem codesByCommand : Obligations.CodesByCommand := by
  obtain ⟨-, hillegal⟩ := illegalWordCompletes
  refine ⟨fun i s t hzero h => ?command, fun s rest hmoves hb hp hd => ?illegal⟩
  case command =>
    obtain ⟨e, hr, rfl⟩ | ⟨-, hcode⟩ := exec_error_cases h
    · rw [raise_errcode]
      exact hr.code_mem
    · rw [hcode, hzero]
      exact zero_mem_possibleCodes i
  case illegal => exact ⟨_, hillegal s rest hmoves hb hp ((legal_eq_false_iff _).mpr hd), rfl⟩

/-- Settles O35: a step that sets ERR is a `raise`, which touches nothing but the completion; an illegal word is O3. -/
theorem errorsLeaveState : Obligations.ErrorsLeaveState := by
  obtain ⟨-, hillegal⟩ := illegalWordCompletes
  refine ⟨fun i s t hclear h herr => ?command, fun s rest e hmoves hb hp hd => ?illegal⟩
  case command =>
    obtain ⟨e, hr, rfl⟩ | ⟨hkept, -⟩ := exec_error_cases h
    · rw [raise_errcode, e.code_eq_seven]
      exact ⟨raise_eq s e, hr.busError_iff⟩
    · rw [hkept, hclear] at herr
      cases herr
  case illegal => exact hillegal s rest hmoves hb hp ((legal_eq_false_iff _).mpr fun i => by simp [hd])

/-! The interrupt (R209). -/

/-- A command's step that ends with BUSY = 0 has set DONE (R205). -/
theorem CommandEffect.done_of_idle {s t : State} {i : Instr} (he : CommandEffect s i t) (hb : s.busy = true)
    (hidle : t.busy = false) : t.done = true := by
  have hstill {u : State} (hu : u.busy = s.busy) (hidle : u.busy = false) : u.done = true := by
    rw [hu, hb] at hidle
    cases hidle
  cases he with
  | fails | nop | init | block | blockInc | zeroize | cipherEmpty => rfl
  | cipherStarts | cipherFetches | cipherStalls => exact hstill rfl hidle
  | cipherGenerates => exact hstill (cipherGen_busy s) hidle
  | cipherStores =>
    obtain ⟨-, ht⟩ | ⟨-, -, ht⟩ | ⟨-, -, ht⟩ := cipherAdvance_cases (cipherStore s) <;> rw [ht] at hidle ⊢
    · rfl
    · exact hstill rfl hidle
    · exact hstill rfl hidle

/-- Settles O55: a completion sets DONE and leaves IE, and the writes act on IE or DONE as their registers say. -/
theorem interruptLevel : Obligations.InterruptLevel := by
  refine ⟨fun s => rfl, fun i s t hb h hidle => ?completion,
    fun s o v rest h => ⟨_, step_hostWrites h, ?ctrl, ?status, ?acceptance⟩⟩
  case completion =>
    have he := exec_effect h
    rw [irq, he.frame.ie, he.done_of_idle hb hidle, Bool.and_true]
  case ctrl =>
    rintro rfl
    rw [regWrite_effect (.inr rfl)]
    rfl
  case status =>
    rintro rfl
    rw [regWrite_effect (.inr rfl), Bool.and_assoc]
    rfl
  case acceptance =>
    rintro rfl hb
    rw [regWrite_effect (s := setSchedule s rest) (.inl hb)]
    exact Bool.and_false s.ie

end Sys2Proof.Machine
end

section
/-! PROOF. The engine never stops (60_exceptions.md R200): its DMA accesses are to existing addresses (42_keystream_commands.md
R154), and nothing else can fault. -/

namespace Sys2Proof.Machine

/-- A command other than CIPHER always answers. -/
theorem exec_answers {i : Instr} (hi : i ≠ .cipher) (s : State) : ∃ t, exec i s = .next t := by
  cases i with
  | nop | zeroize => exact ⟨_, rfl⟩
  | init =>
    rw [exec_init, execInit]
    cases loadedError s <;> exact ⟨_, rfl⟩
  | block dr inc =>
    rw [exec_block, execBlock]
    split_ifs <;> exact ⟨_, rfl⟩
  | cipher => exact absurd rfl hi

/-- While a CIPHER is in progress its next byte lies below 2^32 in both buffers (R154). -/
theorem CipherProgress.addr_lt {s : State} (h : CipherProgress s) :
    sourceAddr s < Config.addressSpace ∧ destAddr s < Config.addressSpace := by
  obtain ⟨-, -, -, hsrc, hdst, -⟩ := (cipherError_none s).mp h.checked
  have hindex := h.index
  unfold sourceAddr destAddr Config.addressSpace
  omega

theorem EngineInv.execCipher_answers {s : State} (h : EngineInv s) : ∃ t, execCipher s = .next t := by
  cases hp : s.phase with
  | check => exact ⟨_, execCipher_check hp⟩
  | gen => exact ⟨_, execCipher_gen hp⟩
  | rd =>
    rw [execCipher, hp]
    exact dmaStep_answers s _ _ _ (h.cipher (by simp [hp])).addr_lt.1
  | wr =>
    rw [execCipher, hp]
    exact dmaStep_answers s _ _ _ (h.cipher (by simp [hp])).addr_lt.2

theorem EngineInv.checkStep_answers {s : State} (h : EngineInv s) : ∃ t, checkStep s = .next t := by
  cases hd : decode s.curcmd with
  | error e => exact ⟨_, checkStep_illegal ((legal_eq_false_iff _).mpr fun i => by simp [hd])⟩
  | ok i =>
    rw [checkStep_of_decode hd]
    by_cases hi : i = .cipher
    · rw [hi, exec_cipher]
      exact h.execCipher_answers
    · exact exec_answers hi s

theorem EngineInv.engineTurn_answers {s : State} (h : EngineInv s) : ∃ t, engineTurn s = .next t := by
  by_cases hb : s.busy = true
  · by_cases hp : s.phase = .check
    · rw [engineTurn_check hb hp]
      exact h.checkStep_answers
    · rw [engineTurn_cipher hb hp]
      exact h.execCipher_answers
  · exact ⟨s, if_neg hb⟩

/-- Settles O42: another agent's move always answers, and the engine's turn does by the progress of its CIPHER. -/
theorem engineNeverStops : Obligations.EngineNeverStops := by
  intro s h
  have hengine {rest : List Move} (hmoves : EngineMoves s rest) : StepAnswers s := by
    rw [StepAnswers, step_engine hmoves]
    exact (h.setSchedule rest).engineTurn_answers
  cases hs : s.schedule with
  | nil => exact hengine (.inl ⟨hs, rfl⟩)
  | cons m rest =>
    by_cases hm : m = .engine
    · exact hengine (.inr (hm ▸ hs))
    · exact ⟨_, step_environment hs hm⟩

end Sys2Proof.Machine
end

section
/-! PROOF. The acceptance of a command (60_exceptions.md R204). -/

namespace Sys2Proof.Machine

theorem decode_of_decodeTableWord {nbits w : Nat} {i : Instr} (h : decodeTableWord nbits w = some i) :
    decode (BitVec.ofNat 32 (w % 2 ^ nbits)) = .ok i := by
  simp only [decodeTableWord] at h
  split at h
  · cases hd : decode (BitVec.ofNat 32 (w % 2 ^ nbits)) with
    | error e => rw [hd] at h; cases h
    | ok j => rw [hd] at h; cases h; rfl
  · cases h

/-- Settles O9: after acceptance the engine's turn is next, at PHASE = CHECK with BUSY = 1, and runs the word's command (O7). -/
theorem presentedCommandRuns : Obligations.PresentedCommandRuns := by
  intro s nbits w i h
  have hd := decode_of_decodeTableWord h
  obtain ⟨-, hword⟩ := encodeOfDecode _ _ hd
  rw [hword]
  exact stepRunsDecodedCommand (s.withFetchWord nbits w) s.schedule i (.inr rfl) rfl rfl hd

/-- Settles O49: CMD is write-protected, and its write effect is acceptance. -/
theorem cmdWriteAccepts : Obligations.CmdWriteAccepts := by
  refine fun s w rest h => ⟨fun hb => step_writes h (.inl hb), fun hb => ?dropped⟩
  rw [step_hostWrites h, regWrite_dropped (s := setSchedule s rest) hb rfl]
  rfl

end Sys2Proof.Machine
end

section
/-! PROOF. The reset input and the end of a command (70_reset_and_hazards.md R240, R241, R250). -/

namespace Sys2Proof.Machine

/-- Settles O45: the step of the reset input is `resetEngine` on the state with the schedule moved on. -/
theorem resetStep : Obligations.ResetStep := fun s rest h =>
  ⟨resetEngine (setSchedule s rest), step_environment h nofun, rfl, rfl⟩

/-- A register write starts a command or leaves BUSY; none ends a command (60_exceptions.md R204, R205). -/
theorem regEffect_busy_of_busy {s : State} (hb : s.busy = true) (v : Word) (r : Reg) : (regEffect s v r).busy = true := by
  cases r with
  | cmd => exact accept_busy s v
  | _ => exact hb

/-- No move of another agent but a reset ends a command. -/
theorem EnvironmentEffect.busy_of_busy {s t : State} {m : Move} (he : EnvironmentEffect s m t) (hm : m ≠ .reset)
    (hb : s.busy = true) : t.busy = true := by
  cases he with
  | outside | dropped => exact hb
  | written _ r v => exact regEffect_busy_of_busy hb v r
  | reset => exact absurd rfl hm

/-- Settles O36: a command's step that lowers BUSY is its completion, which sets DONE; of the other agents only a reset lowers it. -/
theorem busyEndsInDone : Obligations.BusyEndsInDone := by
  intro s t hb hreset h
  obtain ⟨rest, -, rfl | ⟨-, rfl⟩ | ⟨i, -, he⟩⟩ | ⟨m, rest, hs, he⟩ := step_effect h
  · exact .inl hb
  · exact .inr rfl
  · cases hidle : t.busy with
    | false => exact .inr (he.done_of_idle hb hidle)
    | true => exact .inl rfl
  · have hm : m ≠ .reset := fun heq => hreset (by rw [hs, heq, List.head?_cons])
    exact .inl (he.busy_of_busy hm hb)

end Sys2Proof.Machine
end
